-- ==== Sys2Proof/Word.lean ====
section
/-! DEFINITION. The widths of the KPE: a byte, a command word, a byte string (spec/00_scope.md section 5, R5). -/

namespace Sys2Proof

/-- A byte, 0..255; bit 0 is the least significant (00_scope.md section 5). -/
abbrev Byte := BitVec 8

/-- A 32-bit command word, bit 31 the most significant (R34, R47). -/
abbrev Word := BitVec 32

/-- A byte string in index order, index 0 first (00_scope.md section 5). -/
abbrev Bytes := List Byte

end Sys2Proof
end

