-- ==== Sys2Proof/Syntax.lean ====
section
/-! DEFINITION. The twenty commands of the KPE (spec/30_encoding.md R49) and their operand types. -/

namespace Sys2Proof

/-- The four digest variants (R3); the codes are R53's. -/
inductive Variant where
  | k48
  | k256
  | k384
  | k512
  deriving DecidableEq, Repr

/-- The two geometries (R4): 8 rows and 8 or 16 columns. -/
inductive Geom where
  | g8
  | g16
  deriving DecidableEq, Repr

/-- One constructor per row of the opcode table (R49). A byte operand is a `Byte`, an index is a number
(checked by `Instr.WellFormed`), a table number is below 4 by its type. -/
inductive Instr where
  /-- R120 -/
  | nop
  /-- R121: variant `v` -/
  | init (v : Variant)
  /-- R122 -/
  | reset
  /-- R123: message byte `b` -/
  | absorb (b : Byte)
  /-- R124 -/
  | final
  /-- R126: digest index `i` -/
  | dget (i : Nat)
  /-- R81: matrix index `i`, data byte `b` -/
  | wput (i : Nat) (b : Byte)
  /-- R82: matrix index `i` -/
  | wget (i : Nat)
  /-- R88: geometry `g`, round index `nu` -/
  | addcx (g : Geom) (nu : Byte)
  /-- R89 -/
  | addca (g : Geom) (nu : Byte)
  /-- R90 -/
  | subb (g : Geom)
  /-- R91 -/
  | shift (g : Geom)
  /-- R92 -/
  | mixc (g : Geom)
  /-- R98 -/
  | rndx (g : Geom) (nu : Byte)
  /-- R99 -/
  | rnda (g : Geom) (nu : Byte)
  /-- R100 -/
  | permx (g : Geom)
  /-- R101 -/
  | perma (g : Geom)
  /-- R63 -/
  | gfmul (a b : Byte)
  /-- R64 -/
  | gfinv (a : Byte)
  /-- R75: table number `k`, input byte `a` -/
  | sbox (k : Fin 4) (a : Byte)
  deriving DecidableEq, Repr

/-- The mnemonic of R49. -/
def Instr.mnemonic : Instr → String
  | .nop => "NOP"
  | .init _ => "INIT"
  | .reset => "RESET"
  | .absorb _ => "ABSORB"
  | .final => "FINAL"
  | .dget _ => "DGET"
  | .wput _ _ => "WPUT"
  | .wget _ => "WGET"
  | .addcx _ _ => "ADDCX"
  | .addca _ _ => "ADDCA"
  | .subb _ => "SUBB"
  | .shift _ => "SHIFT"
  | .mixc _ => "MIXC"
  | .rndx _ _ => "RNDX"
  | .rnda _ _ => "RNDA"
  | .permx _ => "PERMX"
  | .perma _ => "PERMA"
  | .gfmul _ _ => "GFMUL"
  | .gfinv _ => "GFINV"
  | .sbox _ _ => "SBOX"

end Sys2Proof
end

