-- ==== Sys2Proof/WellFormed.lean ====
section
/-! DEFINITION. When a term of `Instr` is a command the format C32 can hold: an index operand fits the
8-bit field it is copied from (R48). Every other operand fits by its type. -/

namespace Sys2Proof

/-- The index operands of DGET, WPUT and WGET are bytes of the word (R47, R48). An index of 128 or more is
well formed: it decodes, and executing it raises RANGE (R51). -/
def Instr.WellFormed : Instr → Bool
  | .dget i => i < 256
  | .wput i _ => i < 256
  | .wget i => i < 256
  | .nop | .init _ | .reset | .absorb _ | .final => true
  | .addcx _ _ | .addca _ _ | .subb _ | .shift _ | .mixc _ => true
  | .rndx _ _ | .rnda _ _ | .permx _ | .perma _ => true
  | .gfmul _ _ | .gfinv _ | .sbox _ _ => true

end Sys2Proof
end

