-- ==== Sys2Proof/Decode.lean ====
section
/-! DEFINITION. The decoder and the encoder of the command word (spec/30_encoding.md R47 to R53). -/

namespace Sys2Proof

/-- Why a word is no command (R51): (a) its opcode is not one of the twenty, or (b) a listed opcode has a
reserved bit set. Both raise the one fault ILLEGAL (R166). -/
inductive Illegal where
  | undefinedOpcode
  | reservedBit
  deriving DecidableEq, Repr

/-- The decoder's answer: total on 32-bit words (R50). -/
inductive Decoded where
  | command (i : Instr)
  | illegal (why : Illegal)
  deriving DecidableEq, Repr

/-! ## Fields and small codes -/

/-- `cmd[31:24]` (R47). -/
def fieldOp (w : Word) : Byte := w.extractLsb' 24 8
/-- `cmd[15:8]` (R47). -/
def fieldY (w : Word) : Byte := w.extractLsb' 8 8
/-- `cmd[7:0]` (R47). -/
def fieldZ (w : Word) : Byte := w.extractLsb' 0 8

/-- The variant codes of R53. -/
def variantOfCode (v : BitVec 2) : Variant :=
  match v.toNat with
  | 0 => .k48
  | 1 => .k256
  | 2 => .k384
  | _ => .k512

/-- The variant codes of R53. -/
def codeOfVariant : Variant → BitVec 2
  | .k48 => 0
  | .k256 => 1
  | .k384 => 2
  | .k512 => 3

/-- `v = cmd[1:0]` (R48). -/
def fieldV (w : Word) : Variant := variantOfCode (w.extractLsb' 0 2)
/-- `g = cmd[16]` (R48, R53). -/
def fieldG (w : Word) : Geom := if w.getLsbD 16 then .g16 else .g8
/-- `k = cmd[9:8]` (R48). -/
def fieldK (w : Word) : Fin 4 := (w.extractLsb' 8 2).toFin

/-! ## The opcode map -/

/-- A row of the command set (R49): a word `w` is the command of the row iff `(w & mask) = value`;
`build` extracts the fields of R48. -/
structure Row where
  mnemonic : String
  value : Word
  mask : Word
  build : Word → Instr

/-- The match test of R49. -/
def rowMatches (w : Word) (r : Row) : Bool := (w &&& r.mask) == r.value

/-- The command set of R49, in the table's order. -/
def opcodeTable : List Row := [
  ⟨"NOP",    0x00000000, 0xFFFFFFFF, fun _ => .nop⟩,
  ⟨"INIT",   0x01000000, 0xFFFFFFFC, fun w => .init (fieldV w)⟩,
  ⟨"RESET",  0x02000000, 0xFFFFFFFF, fun _ => .reset⟩,
  ⟨"ABSORB", 0x03000000, 0xFFFFFF00, fun w => .absorb (fieldZ w)⟩,
  ⟨"FINAL",  0x04000000, 0xFFFFFFFF, fun _ => .final⟩,
  ⟨"DGET",   0x05000000, 0xFFFFFF00, fun w => .dget (fieldZ w).toNat⟩,
  ⟨"WPUT",   0x10000000, 0xFFFF0000, fun w => .wput (fieldY w).toNat (fieldZ w)⟩,
  ⟨"WGET",   0x11000000, 0xFFFF00FF, fun w => .wget (fieldY w).toNat⟩,
  ⟨"ADDCX",  0x12000000, 0xFFFEFF00, fun w => .addcx (fieldG w) (fieldZ w)⟩,
  ⟨"ADDCA",  0x13000000, 0xFFFEFF00, fun w => .addca (fieldG w) (fieldZ w)⟩,
  ⟨"SUBB",   0x14000000, 0xFFFEFFFF, fun w => .subb (fieldG w)⟩,
  ⟨"SHIFT",  0x15000000, 0xFFFEFFFF, fun w => .shift (fieldG w)⟩,
  ⟨"MIXC",   0x16000000, 0xFFFEFFFF, fun w => .mixc (fieldG w)⟩,
  ⟨"RNDX",   0x17000000, 0xFFFEFF00, fun w => .rndx (fieldG w) (fieldZ w)⟩,
  ⟨"RNDA",   0x18000000, 0xFFFEFF00, fun w => .rnda (fieldG w) (fieldZ w)⟩,
  ⟨"PERMX",  0x19000000, 0xFFFEFFFF, fun w => .permx (fieldG w)⟩,
  ⟨"PERMA",  0x1A000000, 0xFFFEFFFF, fun w => .perma (fieldG w)⟩,
  ⟨"GFMUL",  0x20000000, 0xFFFF0000, fun w => .gfmul (fieldY w) (fieldZ w)⟩,
  ⟨"GFINV",  0x21000000, 0xFFFFFF00, fun w => .gfinv (fieldZ w)⟩,
  ⟨"SBOX",   0x22000000, 0xFFFFFC00, fun w => .sbox (fieldK w) (fieldZ w)⟩]

/-- Which of R51's two reasons makes a word that matches no row illegal. -/
def illegalReason (w : Word) : Illegal :=
  if opcodeTable.any (fun r => fieldOp w == fieldOp r.value) then .reservedBit else .undefinedOpcode

/-- The decoder of R50: it tests the rows of R49; the row that matches gives the command, and a word that
matches none is illegal. It reads no state. -/
def decode (w : Word) : Decoded :=
  match opcodeTable.find? (rowMatches w) with
  | some r => .command (r.build w)
  | none => .illegal (illegalReason w)

/-! ## The encoder -/

/-- The format C32 of R47: `op`, `x`, `y`, `z` from bit 31 down. -/
def packC32 (op x y z : Byte) : Word := op ++ x ++ y ++ z

/-- The `x` byte that holds the geometry bit (R47, R53). -/
def geomByte : Geom → Byte
  | .g8 => 0
  | .g16 => 1

/-- The word of a command (R47 to R49). An index that is no byte is cut to its low 8 bits: such a term is
not well formed (log entry 9). -/
def encode : Instr → Word
  | .nop => packC32 0x00 0 0 0
  | .init v => packC32 0x01 0 0 ((codeOfVariant v).setWidth 8)
  | .reset => packC32 0x02 0 0 0
  | .absorb b => packC32 0x03 0 0 b
  | .final => packC32 0x04 0 0 0
  | .dget i => packC32 0x05 0 0 (BitVec.ofNat 8 i)
  | .wput i b => packC32 0x10 0 (BitVec.ofNat 8 i) b
  | .wget i => packC32 0x11 0 (BitVec.ofNat 8 i) 0
  | .addcx g nu => packC32 0x12 (geomByte g) 0 nu
  | .addca g nu => packC32 0x13 (geomByte g) 0 nu
  | .subb g => packC32 0x14 (geomByte g) 0 0
  | .shift g => packC32 0x15 (geomByte g) 0 0
  | .mixc g => packC32 0x16 (geomByte g) 0 0
  | .rndx g nu => packC32 0x17 (geomByte g) 0 nu
  | .rnda g nu => packC32 0x18 (geomByte g) 0 nu
  | .permx g => packC32 0x19 (geomByte g) 0 0
  | .perma g => packC32 0x1A (geomByte g) 0 0
  | .gfmul a b => packC32 0x20 0 a b
  | .gfinv a => packC32 0x21 0 0 a
  | .sbox k a => packC32 0x22 0 (BitVec.ofNat 8 k.val) a

/-- The command word whose bits are the low `nbits` bits of `w`, every higher bit 0. A command word is one
32-bit integer with no byte order (R34), so nothing is laid out in bytes (log entry 8). -/
def tableWord (nbits w : Nat) : Word := BitVec.ofNat 32 (w % 2 ^ nbits)

/-- The instruction the decoder reads from the word whose bits are `w`. -/
def decodeTableWord (nbits w : Nat) : Option Instr :=
  match decode (tableWord nbits w) with
  | .command i => some i
  | .illegal _ => none

end Sys2Proof
end

