-- ==== Sys2Proof/Config.lean ====
section
/-! DEFINITION. The free values of the KPE: what R25 leaves unspecified, and nothing else
(00_scope.md R5: no rule needs an open parameter). -/

namespace Sys2Proof

/-- The four byte arrays whose contents hardware reset leaves unspecified (R25). -/
inductive ArrayReg where
  | h
  | b
  | w
  | digest
  deriving DecidableEq, Repr

/-- Byte `i` of array `a` after the `n`-th hardware reset: unspecified, and it may differ from one reset
to the next (R25, U1). It has no body, so nothing can be proved of its value. DESIGN CHOICE, log entry 1. -/
opaque Config.resetByte (n : Nat) (a : ArrayReg) (i : Nat) : Byte

end Sys2Proof
end

