-- ==== Sys2Proof/Machine/State.lean ====
section
/-! DEFINITION. The state of the KPE (spec/10_state.md R10), what the host can present to it
(spec/70_reset_and_hazards.md R190), and the state after hardware reset (R181). -/

namespace Sys2Proof.Machine

/-- The register `ST` (R12). -/
inductive HasherState where
  | idle
  | accepting
  | finalized
  | fault
  deriving DecidableEq, Repr

/-- The register `CAUSE` (R160). Codes 6 to 15 are never produced, so the type has six values (U5). -/
inductive Cause where
  | none
  | usageFinalized
  | usageIdle
  | noDigest
  | range
  | illegal
  deriving DecidableEq, Repr

/-- One thing the host does at the ports (R45, R46, R180, R190; log entries 2 and 5). -/
inductive HostInput where
  /-- `cmd_valid` is 0: nothing is presented. -/
  | idle
  /-- The word is presented while `cmd_ready` is 1: it is accepted (R46). -/
  | command (w : Word)
  /-- The word is presented while `cmd_ready` is 0: not accepted, no effect, not remembered (R46). -/
  | notReady (w : Word)
  /-- `rst` is asserted between two commands (R180). -/
  | reset
  /-- `rst` is asserted while the accepted word `w` is in progress: the command is abandoned (R180). -/
  | resetDuring (w : Word)
  deriving DecidableEq, Repr

/-- The architectural state, register by register as R10 lists it, and two fields of the model's own. -/
structure State where
  /-- `ST`, the hasher state machine (R12). -/
  st : HasherState
  /-- `VAR`, the variant (R13). -/
  var : Variant
  /-- `H`, the chain value (R14). -/
  h : Vector Byte 128
  /-- `B`, the input buffer (R15). -/
  b : Vector Byte 128
  /-- `BLEN`, the number of bytes held in `B` (R15). -/
  blen : BitVec 7
  /-- `L`, the number of message bits absorbed, modulo 2^96 (R16). -/
  l : BitVec 96
  /-- `DIGEST` (R17). -/
  digest : Vector Byte 64
  /-- `CAUSE` (R18). -/
  cause : Cause
  /-- `W`, the working matrix (R19). -/
  w : Vector Byte 128
  /-- `R`, the result register (R20). -/
  r : Byte
  /-- The model's own field: what the host will do, next first (log entry 2). -/
  host : List HostInput
  /-- The model's own field: how many hardware resets have happened since the first, the index of the
  unspecified bytes (log entry 3). -/
  resets : Nat
  deriving DecidableEq, Repr

/-- A step of this machine ends in no fault: the spec's `raise Fault(x)` is a next state, with `ST` and
`CAUSE` written (R161), and every accepted word has its whole effect in finite time (R196). No constructor,
so nothing raises one; that is safe, since the model then stops nowhere (log entry 7). -/
inductive Fault where
  deriving DecidableEq, Repr

/-- Why the model has no meaning for an instruction. -/
inductive Refusal where
  /-- Raised by an arm of `exec` that has no meaning yet, by its mnemonic. No arm raises it now. Safe: the
  model stops. -/
  | notModelled (mnemonic : String)
  deriving DecidableEq, Repr

/-- The contents of a byte array after the `n`-th hardware reset: unspecified bytes (R25, log entry 1). -/
def resetArray (n : Nat) (a : ArrayReg) (size : Nat) : Vector Byte size :=
  Vector.ofFn fun i => Config.resetByte n a i.val

/-- The state after the `n`-th hardware reset, with the host's further inputs `host` (R181): the scalars are
0, the byte arrays are unspecified. -/
def State.afterReset (n : Nat) (host : List HostInput) : State where
  st := .idle
  var := .k48
  h := resetArray n .h 128
  b := resetArray n .b 128
  blen := 0
  l := 0
  digest := resetArray n .digest 64
  cause := .none
  w := resetArray n .w 128
  r := 0
  host := host
  resets := n

/-- The machine right after its first hardware reset: R181, and the host has presented nothing. -/
def State.reset : State := State.afterReset 0 []

end Sys2Proof.Machine
end

