-- ==== Sys2Proof/Machine/Operands.lean ====
section
/-! DEFINITION. What the operands and the variant stand for: the geometry, the parameters of the four
variants, and the range checks of index operands (spec/00_scope.md R3, R4; spec/60_exceptions.md R165).
The KPE has no addressing modes (R48). -/

namespace Sys2Proof.Machine

/-- The number of columns c of a geometry (R4). -/
def cols : Geom → Nat
  | .g8 => 8
  | .g16 => 16

/-- NB = 8 c, the bytes of a state matrix and of a block (R3, R4). -/
def blockBytes (g : Geom) : Nat := 8 * cols g

/-- NR, the number of rounds (R4, R96). -/
def rounds : Geom → Nat
  | .g8 => 10
  | .g16 => 14

/-- The state size of a variant (R3). -/
def variantGeom : Variant → Geom
  | .k48 => .g8
  | .k256 => .g8
  | .k384 => .g16
  | .k512 => .g16

/-- NB of a variant (R3). -/
def variantBlock (v : Variant) : Nat := blockBytes (variantGeom v)

/-- OUT, the digest bytes of a variant (R3). -/
def variantOut : Variant → Nat
  | .k48 => 6
  | .k256 => 32
  | .k384 => 48
  | .k512 => 64

end Sys2Proof.Machine
end

