-- ==== Sys2Proof/Machine/Bytes.lean ====
section
/-! DEFINITION. Byte strings, their reading as state matrices, byte order, and the bytes of a register array
that an operation reads and writes (spec/20_memory.md R31 to R34, spec/00_scope.md section 5). -/

namespace Sys2Proof.Machine

/-- The byte in row `i` of column `j` is byte `8*j + i` of the string (R31). Outside the string it is 0,
which no operation reads (log entry 10). -/
def cell (m : Bytes) (i j : Nat) : Byte := m.getD (8 * j + i) 0

/-- The state matrix whose byte in row `i` of column `j` is `f i j`: byte n is in row `n mod 8` of column
`n div 8` (R31). -/
def matrix (g : Geom) (f : Nat → Nat → Byte) : Bytes :=
  (List.range (blockBytes g)).map fun n => f (n % 8) (n / 8)

/-- Column `j`, the 8-byte string `M[8*j .. 8*j+7]` (00_scope.md section 5). -/
def column (m : Bytes) (j : Nat) : Bytes := (List.range 8).map fun i => cell m i j

/-- Byte-wise exclusive-or of equal length byte strings (00_scope.md section 5). -/
def xorBytes (x y : Bytes) : Bytes := List.zipWith (· ^^^ ·) x y

/-- The little-endian value of a byte string: the sum of `X[i] * 256^i` (R33). -/
def leValue (x : Bytes) : Nat := x.foldr (fun b acc => b.toNat + 256 * acc) 0

/-- `bytes_le(n, v)`: the `n` bytes `(v div 256^i) mod 256` (00_scope.md section 5, R32). -/
def bytesLE (n v : Nat) : Bytes := (List.range n).map fun i => BitVec.ofNat 8 (v / 256 ^ i)

/-- Bytes `0..k-1` of a register array. -/
def firstBytes {n : Nat} (v : Vector Byte n) (k : Nat) : Bytes := v.toList.take k

/-- `A[0..len-1] <- x`: the bytes of `x` replace the first bytes of the array and every other byte stays
(00_scope.md section 5; R19, R93, R121, R124). -/
def writeFirst {n : Nat} (v : Vector Byte n) (x : Bytes) : Vector Byte n :=
  Vector.ofFn fun i => x.getD i.val v[i]

end Sys2Proof.Machine
end

