-- ==== Sys2Proof/Machine/Gf.lean ====
section
/-! DEFINITION. The GF(2^8) unit: multiplication and inversion modulo 0x11D (spec/40_gf_unit.md R60 to R62). -/

namespace Sys2Proof.Machine

/-- Multiplication by x: shift left, and reduce by 0x11D when bit 7 was set (R61). -/
def xtime (t : Byte) : Byte := (t <<< 1) ^^^ (if t.getLsbD 7 then 0x1D else 0)

/-- One turn of the loop of R61 over the pair (r, t): add t when bit `k` of `b` is set, then multiply t by x. -/
def gfmulTurn (b : Byte) (rt : Byte × Byte) (k : Nat) : Byte × Byte :=
  (if b.getLsbD k then rt.1 ^^^ rt.2 else rt.1, xtime rt.2)

/-- `gfmul(a, b)`, the field product (R61). -/
def gfmul (a b : Byte) : Byte := ((List.range 8).foldl (gfmulTurn b) (0, a)).1

/-- `a^(2^n)` by repeated squaring. -/
def gfsquares (a : Byte) : Nat → Byte
  | 0 => a
  | n + 1 => gfmul (gfsquares a n) (gfsquares a n)

/-- `gfinv(a)` is `a^254`, by square-and-multiply: 254 = 2 + 4 + 8 + 16 + 32 + 64 + 128; it is 0 for 0 (R62). -/
def gfinv (a : Byte) : Byte :=
  [2, 3, 4, 5, 6, 7].foldl (fun acc n => gfmul acc (gfsquares a n)) (gfsquares a 1)

end Sys2Proof.Machine
end

