-- ==== Sys2Proof/Machine/Tables.lean ====
section
/-! DEFINITION. The constant tables: S0 to S3, the MDS row, the shift amounts, the IV and the round constants
(spec/41_constant_tables.md R70 to R80). -/

namespace Sys2Proof.Machine

/-- Table S0 (R71), one number per printed line of sixteen entries, in the order printed. -/
def s0Rows : List Nat := [
  0xA8435F066B756C5971DF879517F0D809,
  0x6DF31DCBC94D2CAF79E097FD6F4B4539,
  0x3EDDA34FB4B69A0E1FBF15E149D293C6,
  0x92729E61D163FAEEF419D5AD58A4BBA1,
  0xDCF2833742E47A329CCCAB4A8F6E0427,
  0x2EE7E25A9616232BC265660FBCA94741,
  0x3448FCB76A88A55386F95BDB387BC31E,
  0x2233242836C7B23B8E77BAF5149F0855,
  0x9B4CFE605CDA1846CD7D21B03F1B89FF,
  0xEB84693A9DD7D3706740B5DE5D3091B1,
  0x781101E5006898A0C502A6742D0BA276,
  0xB3BECEBDAEE98A311CECF19994AAF626,
  0x2FEFE88C3503D47FFB05C15E90203D82,
  0xF7EA0A0D7EF8501AC40757B83C62E3C8,
  0xAC526410D0D9130C122951B9CFD6738D,
  0x8154C0ED4E44A72A8525E6CA7C8B5680]

/-- Table S1 (R72), one number per printed line of sixteen entries, in the order printed. -/
def s1Rows : List Nat := [
  0xCEBBEB92EACB13C1E93AD6B2D29017F8,
  0x421556B4651C8843C55C36BAF557678D,
  0x31F664589EF422AA750F02B1DF6D734D,
  0x7C262EF7085D443E9F14C8AE5410D8BC,
  0x1A6B69F3BD33ABFAD19B684E169591EE,
  0x4C638E5BCC3C19A181497BD96F3760CA,
  0xE72B48FD9645FC41120D79E5898CE320,
  0x30DCB76C4AB53F97D4622D06A4A5835F,
  0x2ADAC9007EA255BF11D59CCF0E0A3D51,
  0x7D931BFEC44709860B8F9D6A07B9B098,
  0x1832714BEF3B70A0E440FFC3A9E678F9,
  0x8B46801E38E1B8A8E00C23761D252405,
  0xF16E94289A84E8A34F77D385E252F282,
  0x507A2F7453B361AF3935DECD1F99ACAD,
  0x722CDDD087BE5EA6EC04C60334FBDB59,
  0xB6C201F05AEDA766217F8A27C7C029D7]

/-- Table S2 (R73), one number per printed line of sixteen entries, in the order printed. -/
def s2Rows : List Nat := [
  0x93D99AB5982245FCBA6ADF029FDC5159,
  0x4A172BC294F4BBA362E471D4CD7016E1,
  0x493CC0D85C9BAD8553A17AC82DE0D172,
  0xA62CC4E37678B7B4093B0E414CDEB290,
  0x25A5D7031100C32E92EF4E129D7DCB35,
  0x10D54F9E4DA955C6D07B1897D336E648,
  0x56818F77CC9CB9E2ACB82F15A47CDA38,
  0x1E0B05D6146E6C7E66FDB1E560AF5E33,
  0x87C9F05D6D3F888DC7F71DE9ECED8029,
  0x27CF99A8500F3724283095D23E5B4083,
  0xB369571F071C8ABC20EBCE8EABEE31A2,
  0x73F9CA3A1AFB0DC1FEFAF26FBD96DD43,
  0x52B608F3AEBE19893226B0EA4B648482,
  0x6BF579BF015F75631B233D682A65E891,
  0xF6FF1358F1470A7FC5A7E7615A064644,
  0x4204A0DB398654AA8C34218BF80C7467]

/-- Table S3 (R74), one number per printed line of sixteen entries, in the order printed. -/
def s3Rows : List Nat := [
  0x688DCA4D734B4E2AD45226B3541E191F,
  0x2203463D2D4A5383138AB7D52579F5BD,
  0x582F0D02ED519E11F23E555ED1163C66,
  0x705DF34540CCE8945608CE1A3AD2E1DF,
  0xB5386E0EE5F4F986E94FD68523CF3299,
  0x3114AEEEC848D330A19241B118C42C71,
  0x724415FD37BE5FAA9B88D8AB899CFA60,
  0xEABC620C24A6A8EC6720DB7C28DDAC5B,
  0x347E10F17B8F63A0059A437721BF2709,
  0xC39FB6D729C2EBC0A48B8C1DFBFFC1B2,
  0x972EF865F67507044933E4D9B9D042C7,
  0x6C90008E6F5001C5DA473FCD69A2E27A,
  0xA7C6930F0A06E62B96A31CAF6A128439,
  0xE7B082F7FE9D875C8135DEB4A5FC80EF,
  0xCBBB6B76BA5A7D780B95E3AD74983B36,
  0x646DDCF059A94C177F91B8C9571BE061]

/-- The lines of table `k` (R70 to R74). -/
def sboxRows (k : Fin 4) : List Nat :=
  match k with
  | 0 => s0Rows
  | 1 => s1Rows
  | 2 => s2Rows
  | 3 => s3Rows

/-- `S_k[a]`: the entry for 0xRC is in line R, column C, columns from the left (R70). -/
def sboxEntry (k : Fin 4) (a : Byte) : Byte :=
  BitVec.ofNat 8 ((sboxRows k).getD (a.toNat / 16) 0 >>> (8 * (15 - a.toNat % 16)))

/-- The MDS coefficient row v (R76). -/
def mdsRow : List Byte := [0x01, 0x01, 0x05, 0x01, 0x08, 0x06, 0x07, 0x04]

/-- The MDS matrix, `A[i][k] = v[(k - i) mod 8]` for `i`, `k` in 0..7 (R76). -/
def mdsEntry (i k : Nat) : Byte := mdsRow.getD ((k + 8 - i) % 8) 0

/-- The amount row `i` moves in ShiftBytes (R77). -/
def shiftAmount (g : Geom) (i : Nat) : Nat :=
  match g, i with
  | .g16, 7 => 11
  | _, i => i

/-- IV(NB): NB in byte 0, every other byte 0 (R78). -/
def ivBytes (g : Geom) : Bytes :=
  BitVec.ofNat 8 (blockBytes g) :: List.replicate (blockBytes g - 1) 0

/-- The row-0 byte of the constant KX(nu, j) of T-xor, `((j << 4) ^ nu) & 0xFF`; its other bytes are 0 (R79). -/
def kxByte (j : Nat) (nu : Byte) : Byte := BitVec.ofNat 8 (16 * j) ^^^ nu

/-- The row-7 byte of the constant KA(nu, j) of T-add: the columns are counted from the right (R80). -/
def kaByte (g : Geom) (j : Nat) (nu : Byte) : Byte := BitVec.ofNat 8 (16 * (cols g - 1 - j)) ^^^ nu

/-- The constant KA(nu, j) of T-add as a column, row 0 first (R80). -/
def kaColumn (g : Geom) (j : Nat) (nu : Byte) : Bytes :=
  [0xF3, 0xF0, 0xF0, 0xF0, 0xF0, 0xF0, 0xF0, kaByte g j nu]

end Sys2Proof.Machine
end

