-- ==== Sys2Proof/Machine/RoundSteps.lean ====
section
/-! DEFINITION. The four round steps, the rounds and the permutations T-xor and T-add, as functions on state
matrices (spec/42_round_steps.md R83 to R87, spec/43_permutations.md R94 to R97). -/

namespace Sys2Proof.Machine

/-- AddConstX(M, c, nu): only row 0 changes (R83). -/
def addConstX (g : Geom) (m : Bytes) (nu : Byte) : Bytes :=
  matrix g fun i j => if i = 0 then cell m i j ^^^ kxByte j nu else cell m i j

/-- AddConstA(M, c, nu): each column, a little-endian 64-bit number, gets its constant added modulo 2^64;
the carry out of row 7 is dropped (R84, R33). -/
def addConstA (g : Geom) (m : Bytes) (nu : Byte) : Bytes :=
  matrix g fun i j =>
    (bytesLE 8 ((leValue (column m j) + leValue (kaColumn g j nu)) % 2 ^ 64)).getD i 0

/-- SubBytes(M, c): the table is chosen by the row modulo 4 (R85, R70). -/
def subBytes (g : Geom) (m : Bytes) : Bytes :=
  matrix g fun i j => sboxEntry (Fin.ofNat 4 i) (cell m i j)

/-- ShiftBytes(M, c): `M'[i,j] = M[i, (j - d_i) mod c]` (R86). -/
def shiftBytes (g : Geom) (m : Bytes) : Bytes :=
  matrix g fun i j => cell m i ((j + cols g - shiftAmount g i) % cols g)

/-- MixColumns(M, c): `M'[i,j]` is the sum over k of `A[i][k] * M[k,j]` in the field (R87). -/
def mixColumns (g : Geom) (m : Bytes) : Bytes :=
  matrix g fun i j => (List.range 8).foldl (fun acc k => acc ^^^ gfmul (mdsEntry i k) (cell m k j)) 0

/-- RoundX(M, c, nu) (R94). -/
def roundX (g : Geom) (m : Bytes) (nu : Byte) : Bytes :=
  mixColumns g (shiftBytes g (subBytes g (addConstX g m nu)))

/-- RoundA(M, c, nu) (R95). -/
def roundA (g : Geom) (m : Bytes) (nu : Byte) : Bytes :=
  mixColumns g (shiftBytes g (subBytes g (addConstA g m nu)))

/-- Tx(M, c): rounds 0, 1, ..., NR-1 of the xor-branch (R96). -/
def permX (g : Geom) (m : Bytes) : Bytes :=
  (List.range (rounds g)).foldl (fun x nu => roundX g x (BitVec.ofNat 8 nu)) m

/-- Ta(M, c): rounds 0, 1, ..., NR-1 of the add-branch (R97). -/
def permA (g : Geom) (m : Bytes) : Bytes :=
  (List.range (rounds g)).foldl (fun x nu => roundA g x (BitVec.ofNat 8 nu)) m

end Sys2Proof.Machine
end

