-- ==== Sys2Proof/Machine/Compression.lean ====
section
/-! DEFINITION. The compression function, the output transform, truncation, padding, the finalisation loop and
the hash function they compute (spec/44_compression.md R103 to R106, spec/45_padding.md R110 to R112,
spec/46_hasher_commands.md R125). -/

namespace Sys2Proof.Machine

/-- LoadBlock(m): byte n of the block is byte n of the matrix (R103). -/
def loadBlock (m : Bytes) : Bytes := m

/-- Compress(h, m, c) = Tx(h ^ m) ^ Ta(m) ^ h (R104). -/
def compress (g : Geom) (h m : Bytes) : Bytes :=
  xorBytes (xorBytes (permX g (xorBytes h m)) (permA g m)) h

/-- OutputTransform(h, c) = Tx(h) ^ h (R105). -/
def outputTransform (g : Geom) (h : Bytes) : Bytes := xorBytes (permX g h) h

/-- Truncate(s, NB, OUT): `d[i] = s[NB - OUT + i]`, the last OUT bytes (R106). -/
def truncate (nb out : Nat) (s : Bytes) : Bytes :=
  (List.range out).map fun i => s.getD (nb - out + i) 0

/-- The number of zero bytes, `(NB - 13 - r) mod NB` with the non-negative remainder (R110). -/
def padZeros (nb r : Nat) : Nat := (((nb : Int) - 13 - (r : Int)) % (nb : Int)).toNat

/-- Pad(b, L, NB): the bytes, 0x80, zero bytes, and L as 12 bytes little-endian (R110, R32). -/
def pad (nb : Nat) (b : Bytes) (l : Nat) : Bytes :=
  b ++ [0x80] ++ List.replicate (padZeros nb b.length) 0 ++ bytesLE 12 l

/-- Bytes `t*NB .. t*NB + NB - 1` of a byte string (R112). -/
def blockAt (nb : Nat) (p : Bytes) (t : Nat) : Bytes := (p.drop (t * nb)).take nb

/-- The chain value after the first `n` blocks of `p`, from `h`, each block loaded and folded in order
(R42, R103, R112, R125). -/
def chainBlocks (g : Geom) (h p : Bytes) (n : Nat) : Bytes :=
  (List.range n).foldl (fun x t => compress g x (loadBlock (blockAt (blockBytes g) p t))) h

/-- FinalChain(H, B, BLEN, L, c), of the chain value `h` and the buffered bytes `b` (R112). -/
def finalChain (g : Geom) (h b : Bytes) (l : Nat) : Bytes :=
  let p := pad (blockBytes g) b l
  chainBlocks g h p (p.length / blockBytes g)

/-- The function Kupyna(v, m) of R125, with the length field holding `8 * n` modulo 2^96 (R113): the digest
of `m` when `8 * n < 2^96`, and what R125 and R187 give for a longer message. -/
def kupyna (v : Variant) (m : Bytes) : Bytes :=
  let g := variantGeom v
  let nb := blockBytes g
  let q := m.length / nb
  let h := chainBlocks g (ivBytes g) m q
  let h := finalChain g h (m.drop (q * nb)) (8 * m.length % 2 ^ 96)
  truncate nb (variantOut v) (outputTransform g h)

end Sys2Proof.Machine
end

