-- ==== Sys2Proof/Machine/Flags.lean ====
section
/-! DEFINITION. The status codes and the outputs. The KPE has no condition codes, carry, overflow or zero flags
(R22), so there is no flag computation; its status registers are ST and CAUSE (R23), shown on ports (R46). -/

namespace Sys2Proof.Machine

/-- The code of ST (R12, R53). -/
def stCode : HasherState → BitVec 2
  | .idle => 0
  | .accepting => 1
  | .finalized => 2
  | .fault => 3

/-- The code of CAUSE (R160, R53). -/
def causeCode : Cause → BitVec 4
  | .none => 0
  | .usageFinalized => 1
  | .usageIdle => 2
  | .noDigest => 3
  | .range => 4
  | .illegal => 5

/-- The outputs at a command boundary (R45, R46). -/
structure Outputs where
  st : BitVec 2
  cause : BitVec 4
  r : Byte
  deriving DecidableEq, Repr

/-- What the host samples at a command boundary: the current ST, CAUSE and R (R46, R190). -/
def State.outputs (s : State) : Outputs := ⟨stCode s.st, causeCode s.cause, s.r⟩

/-- `cmd_ready` at a command boundary: 1, but 0 while `rst` is asserted (R46, R180). -/
def cmdReady (rst : Bool) : Bool := !rst

end Sys2Proof.Machine
end

