-- ==== Sys2Proof/Machine/Ops.lean ====
section
/-! DEFINITION. The shared operations on State: raising a fault, hardware reset (the only way out of one), the
state checks, and the ways a command writes R and W (spec/60_exceptions.md R161 to R168,
spec/70_reset_and_hazards.md R180, spec/42_round_steps.md R93). -/

namespace Sys2Proof.Machine

/-- What a meaning answers. -/
abbrev Result := Host.Outcome State Fault Refusal

/-! ## Taking a fault, and leaving FAULT -/

/-- `raise Fault(x)`: ST and CAUSE are written and nothing else (R161). -/
def raiseFault (x : Cause) (s : State) : State := { s with st := .fault, cause := x }

/-- Hardware reset, the only return from FAULT (R168, R180, R181): the scalars are cleared, the byte arrays
hold fresh unspecified bytes (R25), and the host's further inputs are the host's own. -/
def hardwareReset (s : State) : State := State.afterReset (s.resets + 1) s.host

/-! ## State checks -/

/-- `if ST = FAULT: no effect` (R168), else the command's own next state. -/
def unlessFault (s : State) (next : State) : Result :=
  match s.st with
  | .fault => .next s
  | _ => .next next

/-- The check of RESET: USAGE_IDLE in IDLE (R122, R163). -/
def requireHasher (s : State) (next : State) : Result :=
  match s.st with
  | .fault => .next s
  | .idle => .next (raiseFault .usageIdle s)
  | .accepting => .next next
  | .finalized => .next next

/-- The check of ABSORB and FINAL: USAGE_IDLE in IDLE, USAGE_FINALIZED in FINALIZED (R123, R124, R162, R163). -/
def requireAccepting (s : State) (next : State) : Result :=
  match s.st with
  | .fault => .next s
  | .idle => .next (raiseFault .usageIdle s)
  | .finalized => .next (raiseFault .usageFinalized s)
  | .accepting => .next next

/-- The check of DGET: NODIGEST in IDLE and ACCEPTING (R126, R164). -/
def requireFinalized (s : State) (next : State) : Result :=
  match s.st with
  | .fault => .next s
  | .idle => .next (raiseFault .noDigest s)
  | .accepting => .next (raiseFault .noDigest s)
  | .finalized => .next next

/-! ## Writing registers -/

/-- `R <- v` (R20). -/
def writeR (v : Byte) (s : State) : State := { s with r := v }

/-- `W[0..8c-1] <- f(W[0..8c-1])`, every other byte and register unchanged (R93). -/
def applyToW (g : Geom) (f : Bytes → Bytes) (s : State) : State :=
  { s with w := writeFirst s.w (f (firstBytes s.w (blockBytes g))) }

/-- A fresh hasher of variant `v`: the IV, an empty buffer, a zero length counter, ACCEPTING (R121, R122). -/
def startHasher (v : Variant) (s : State) : State :=
  { s with
    var := v
    h := writeFirst s.h (ivBytes (variantGeom v))
    blen := 0
    l := 0
    st := .accepting }

end Sys2Proof.Machine
end

