-- ==== Sys2Proof/Machine/GfTable.lean ====
section
/-! DEFINITION. The GF and table commands GFMUL, GFINV, SBOX (spec/40_gf_unit.md R63, R64;
spec/41_constant_tables.md R75). -/

namespace Sys2Proof.Machine

/-- GFMUL a, b: `R <- gfmul(a, b)` (R63). -/
def execGfmul (a b : Byte) (s : State) : Result := unlessFault s (writeR (gfmul a b) s)

/-- GFINV a: `R <- gfinv(a)` (R64). -/
def execGfinv (a : Byte) (s : State) : Result := unlessFault s (writeR (gfinv a) s)

/-- SBOX k, a: `R <- S_k[a]` (R75). -/
def execSbox (k : Fin 4) (a : Byte) (s : State) : Result := unlessFault s (writeR (sboxEntry k a) s)

end Sys2Proof.Machine
end

