-- ==== Sys2Proof/Machine/Hasher.lean ====
section
/-! DEFINITION. The hasher commands NOP, INIT, RESET, ABSORB, FINAL, DGET (spec/46_hasher_commands.md R120 to
R126). -/

namespace Sys2Proof.Machine

/-- NOP: no effect, in every state (R120). -/
def execNop (s : State) : Result := .next s

/-- INIT v (R121). -/
def execInit (v : Variant) (s : State) : Result := unlessFault s (startHasher v s)

/-- RESET: in every state where it is legal, exactly the effect of INIT VAR (R122). -/
def execReset (s : State) : Result := requireHasher s (startHasher s.var s)

/-- What ABSORB b does in ACCEPTING (R123): the byte enters the buffer, the length grows by 8 bits, and a
completed block is folded into the chain value. -/
def absorbByte (b : Byte) (s : State) : State :=
  let g := variantGeom s.var
  let buf := s.b.set s.blen.toNat b (by omega)
  if s.blen.toNat + 1 = blockBytes g then
    { s with
      b := buf
      blen := 0
      l := s.l + 8
      h := writeFirst s.h
        (compress g (firstBytes s.h (blockBytes g)) (loadBlock (firstBytes buf (blockBytes g)))) }
  else
    { s with b := buf, blen := s.blen + 1, l := s.l + 8 }

/-- ABSORB b (R123). -/
def execAbsorb (b : Byte) (s : State) : Result := requireAccepting s (absorbByte b s)

/-- What FINAL does in ACCEPTING (R124): the last chain value stays in H, DIGEST gets the truncated output
transform of it; B, BLEN, L and the rest of DIGEST stay. -/
def finalize (s : State) : State :=
  let g := variantGeom s.var
  let h := finalChain g (firstBytes s.h (blockBytes g)) (firstBytes s.b s.blen.toNat) s.l.toNat
  { s with
    h := writeFirst s.h h
    digest := writeFirst s.digest (truncate (blockBytes g) (variantOut s.var) (outputTransform g h))
    st := .finalized }

/-- FINAL (R124). -/
def execFinal (s : State) : Result := requireAccepting s (finalize s)

/-- DGET i: the state check comes before the range check (R126, R165, R167). -/
def execDget (i : Nat) (s : State) : Result :=
  requireFinalized s <|
    if i < variantOut s.var then writeR (s.digest.toList.getD i 0) s else raiseFault .range s

end Sys2Proof.Machine
end

