-- ==== Sys2Proof/Machine/Permutations.lean ====
section
/-! DEFINITION. The commands RNDX, RNDA, PERMX, PERMA: one round or a whole permutation of the working matrix
(spec/43_permutations.md R98 to R101). -/

namespace Sys2Proof.Machine

/-- RNDX g, nu (R98). -/
def execRndx (g : Geom) (nu : Byte) (s : State) : Result :=
  unlessFault s (applyToW g (fun m => roundX g m nu) s)

/-- RNDA g, nu (R99). -/
def execRnda (g : Geom) (nu : Byte) (s : State) : Result :=
  unlessFault s (applyToW g (fun m => roundA g m nu) s)

/-- PERMX g: the round count follows `g`, not VAR (R100). -/
def execPermx (g : Geom) (s : State) : Result := unlessFault s (applyToW g (permX g) s)

/-- PERMA g (R101). -/
def execPerma (g : Geom) (s : State) : Result := unlessFault s (applyToW g (permA g) s)

end Sys2Proof.Machine
end

