-- ==== Sys2Proof/Machine/Working.lean ====
section
/-! DEFINITION. The commands on the working matrix: WPUT, WGET and the round steps ADDCX, ADDCA, SUBB, SHIFT, MIXC
(spec/42_round_steps.md R81, R82, R88 to R93). -/

namespace Sys2Proof.Machine

/-- WPUT i, b: `W[i] <- b`, or RANGE when `i` is 128 or more (R81). -/
def execWput (i : Nat) (b : Byte) (s : State) : Result :=
  unlessFault s <| if h : i < 128 then { s with w := s.w.set i b h } else raiseFault .range s

/-- WGET i: `R <- W[i]`, or RANGE when `i` is 128 or more (R82). -/
def execWget (i : Nat) (s : State) : Result :=
  unlessFault s <| if h : i < 128 then writeR (s.w[i]'h) s else raiseFault .range s

/-- ADDCX g, nu (R88). -/
def execAddcx (g : Geom) (nu : Byte) (s : State) : Result :=
  unlessFault s (applyToW g (fun m => addConstX g m nu) s)

/-- ADDCA g, nu (R89). -/
def execAddca (g : Geom) (nu : Byte) (s : State) : Result :=
  unlessFault s (applyToW g (fun m => addConstA g m nu) s)

/-- SUBB g (R90). -/
def execSubb (g : Geom) (s : State) : Result := unlessFault s (applyToW g (subBytes g) s)

/-- SHIFT g (R91). -/
def execShift (g : Geom) (s : State) : Result := unlessFault s (applyToW g (shiftBytes g) s)

/-- MIXC g (R92). -/
def execMixc (g : Geom) (s : State) : Result := unlessFault s (applyToW g (mixColumns g) s)

end Sys2Proof.Machine
end

