-- ==== Sys2Proof/Machine/Dispatch.lean ====
section
/-! DEFINITION. One arm per command: its meaning. -/

namespace Sys2Proof.Machine

def exec (i : Instr) (s : State) : Host.Outcome State Fault Refusal :=
  match i with
  | .nop => Sys2Proof.Machine.execNop s
  | .init v => Sys2Proof.Machine.execInit v s
  | .reset => Sys2Proof.Machine.execReset s
  | .absorb b => Sys2Proof.Machine.execAbsorb b s
  | .final => Sys2Proof.Machine.execFinal s
  | .dget n => Sys2Proof.Machine.execDget n s
  | .wput n b => Sys2Proof.Machine.execWput n b s
  | .wget n => Sys2Proof.Machine.execWget n s
  | .addcx g nu => Sys2Proof.Machine.execAddcx g nu s
  | .addca g nu => Sys2Proof.Machine.execAddca g nu s
  | .subb g => Sys2Proof.Machine.execSubb g s
  | .shift g => Sys2Proof.Machine.execShift g s
  | .mixc g => Sys2Proof.Machine.execMixc g s
  | .rndx g nu => Sys2Proof.Machine.execRndx g nu s
  | .rnda g nu => Sys2Proof.Machine.execRnda g nu s
  | .permx g => Sys2Proof.Machine.execPermx g s
  | .perma g => Sys2Proof.Machine.execPerma g s
  | .gfmul a b => Sys2Proof.Machine.execGfmul a b s
  | .gfinv a => Sys2Proof.Machine.execGfinv a s
  | .sbox k a => Sys2Proof.Machine.execSbox k a s

end Sys2Proof.Machine
end

