-- ==== Sys2Proof/Machine/Accept.lean ====
section
/-! DEFINITION. How an accepted word and every other host input is handled (spec/60_exceptions.md R167,
spec/30_encoding.md R46, spec/70_reset_and_hazards.md R180). -/

namespace Sys2Proof.Machine

/-- An accepted word, in the order of R167: ignored in FAULT, even if illegal; illegal words raise ILLEGAL;
a command is executed (its own rule then makes the state check before the range check). -/
def acceptWord (w : Word) (s : State) : Result :=
  match s.st with
  | .fault => .next s
  | _ =>
    match decode w with
    | .illegal _ => .next (raiseFault .illegal s)
    | .command i => exec i s

/-- One host input: an accepted word is executed, `rst` resets the core whatever it was doing, and nothing
else has an effect (R46, R180, R190). -/
def takeInput (x : HostInput) (s : State) : Result :=
  match x with
  | .idle => .next s
  | .command w => acceptWord w s
  | .notReady _ => .next s
  | .reset => .next (hardwareReset s)
  | .resetDuring _ => .next (hardwareReset s)

/-- The next input of the host is taken off its list. With none left the core waits: it does nothing until a
command is accepted (R181, R197). -/
def hostStep (s : State) : Result :=
  match s.host with
  | [] => .next s
  | x :: rest => takeInput x { s with host := rest }

end Sys2Proof.Machine
end

