-- ==== Sys2Proof/Machine/Step.lean ====
section
/-! DEFINITION. One step of the machine: one host input (spec/00_scope.md R2, spec/70_reset_and_hazards.md R196). -/

namespace Sys2Proof.Machine

/-- One step: the core takes the host's next input (R40, R196). -/
def step (s : State) : Host.Outcome State Fault Refusal := hostStep s

/-- `s` with the word presented to it next: the KPE fetches nothing, the host presents each command (R11), so
the word goes to the front of the host's inputs (log entry 2). -/
def State.withFetchWord (s : State) (nbits w : Nat) : State :=
  { s with host := .command (tableWord nbits w) :: s.host }

end Sys2Proof.Machine
end

