-- ==== Sys2Proof/Machine/Pseudo.lean ====
section
/-! DEFINITION. How a program is written down: the assembler syntax of R54 and the pseudo-instructions of R55
(spec/30_encoding.md). Neither is ever presented to the core: the core sees command words only. -/

namespace Sys2Proof.Machine

/-! ## Pseudo-instructions -/

/-- The five pseudo-instructions (R55). -/
inductive Pseudo where
  | update (bs : Bytes)
  | hash (v : Variant) (bs : Bytes)
  | dread
  | wload (g : Geom) (bs : Bytes)
  | wread (g : Geom)
  deriving DecidableEq, Repr

/-- The expansion of R55; OUT in DREAD is that of the current variant `cur`. WLOAD is written with the 8c bytes
of its geometry (`pseudoOk`). -/
def expandPseudo (cur : Variant) : Pseudo → List Instr
  | .update bs => bs.map .absorb
  | .hash v bs => .init v :: bs.map .absorb ++ [.final]
  | .dread => (List.range (variantOut cur)).map .dget
  | .wload _ bs => bs.zipIdx.map fun bi => .wput bi.2 bi.1
  | .wread g => (List.range (blockBytes g)).map .wget

/-- WLOAD g names exactly the bytes b0 .. b(8c-1) (R55). -/
def pseudoOk : Pseudo → Bool
  | .wload g bs => bs.length == blockBytes g
  | .update _ | .hash _ _ | .dread | .wread _ => true

/-! ## Assembler -/

/-- What one line of a program holds (R54). -/
inductive AsmLine where
  | blank
  | command (i : Instr)
  | error
  deriving DecidableEq, Repr

/-- Spaces and tabs separate; log entry 11. -/
def isBlank (c : Char) : Bool := c == ' ' || c == '\t'

/-- A text without blanks at its ends. -/
def trimBlanks (t : List Char) : List Char := ((t.dropWhile isBlank).reverse.dropWhile isBlank).reverse

/-- The pieces of a text between commas; always at least one. -/
def splitCommas : List Char → List (List Char)
  | [] => [[]]
  | c :: cs =>
    match splitCommas cs with
    | [] => [[c]]
    | p :: ps => if c == ',' then [] :: p :: ps else (c :: p) :: ps

/-- The value of a digit, hexadecimal letters in either case. -/
def digitValue (c : Char) : Option Nat :=
  let n := c.toNat
  if 48 ≤ n && n ≤ 57 then some (n - 48)
  else if 65 ≤ n && n ≤ 70 then some (n - 55)
  else if 97 ≤ n && n ≤ 102 then some (n - 87)
  else none

/-- The value of a string of digits in a base, from the value read so far. -/
def digitsValue (base : Nat) : Nat → List Char → Option Nat
  | acc, [] => some acc
  | acc, c :: cs =>
    match digitValue c with
    | some d => if d < base then digitsValue base (base * acc + d) cs else none
    | none => none

/-- A number, decimal or with the prefix 0x, or one of the six symbols (R54). A symbol stands for its code in the place
of any operand, so `ABSORB K512` and `INIT G16` assemble: R54 does not say (log entry 11). -/
def operandValue : List Char → Option Nat
  | [] => none
  | ['K', '4', '8'] => some 0
  | ['K', '2', '5', '6'] => some 1
  | ['K', '3', '8', '4'] => some 2
  | ['K', '5', '1', '2'] => some 3
  | ['G', '8'] => some 0
  | ['G', '1', '6'] => some 1
  | ['0', 'x'] => none
  | '0' :: 'x' :: ds => digitsValue 16 0 ds
  | ds => digitsValue 10 0 ds

/-- The values of all operands, or none when one of them is no operand. -/
def operandValues : List (List Char) → Option (List Nat)
  | [] => some []
  | p :: ps =>
    match operandValue (trimBlanks p), operandValues ps with
    | some v, some vs => some (v :: vs)
    | _, _ => none

/-- The opcode-table row that a mnemonic names, with where each of its operands stands in the word: the lowest
bit and the width of its field, in the order of the operands column (R49, R54). -/
def asmFields (mnemonic : List Char) : Option (Word × List (Nat × Nat)) :=
  match mnemonic with
  | ['N', 'O', 'P'] => some (0x00000000, [])
  | ['I', 'N', 'I', 'T'] => some (0x01000000, [(0, 2)])
  | ['R', 'E', 'S', 'E', 'T'] => some (0x02000000, [])
  | ['A', 'B', 'S', 'O', 'R', 'B'] => some (0x03000000, [(0, 8)])
  | ['F', 'I', 'N', 'A', 'L'] => some (0x04000000, [])
  | ['D', 'G', 'E', 'T'] => some (0x05000000, [(0, 8)])
  | ['W', 'P', 'U', 'T'] => some (0x10000000, [(8, 8), (0, 8)])
  | ['W', 'G', 'E', 'T'] => some (0x11000000, [(8, 8)])
  | ['A', 'D', 'D', 'C', 'X'] => some (0x12000000, [(16, 1), (0, 8)])
  | ['A', 'D', 'D', 'C', 'A'] => some (0x13000000, [(16, 1), (0, 8)])
  | ['S', 'U', 'B', 'B'] => some (0x14000000, [(16, 1)])
  | ['S', 'H', 'I', 'F', 'T'] => some (0x15000000, [(16, 1)])
  | ['M', 'I', 'X', 'C'] => some (0x16000000, [(16, 1)])
  | ['R', 'N', 'D', 'X'] => some (0x17000000, [(16, 1), (0, 8)])
  | ['R', 'N', 'D', 'A'] => some (0x18000000, [(16, 1), (0, 8)])
  | ['P', 'E', 'R', 'M', 'X'] => some (0x19000000, [(16, 1)])
  | ['P', 'E', 'R', 'M', 'A'] => some (0x1A000000, [(16, 1)])
  | ['G', 'F', 'M', 'U', 'L'] => some (0x20000000, [(8, 8), (0, 8)])
  | ['G', 'F', 'I', 'N', 'V'] => some (0x21000000, [(0, 8)])
  | ['S', 'B', 'O', 'X'] => some (0x22000000, [(8, 2), (0, 8)])
  | _ => none

/-- The word with each operand value in its field; none when a value does not fit or the count is wrong. -/
def placeOperands : Word → List (Nat × Nat) → List Nat → Option Word
  | w, [], [] => some w
  | w, (lo, width) :: fs, v :: vs =>
    if v < 2 ^ width then placeOperands (w ||| BitVec.ofNat 32 (v * 2 ^ lo)) fs vs else none
  | _, _, _ => none

/-- The operand texts after a mnemonic: none at all, or the pieces between commas. -/
def operandTexts (t : List Char) : List (List Char) :=
  match trimBlanks t with
  | [] => []
  | cs => splitCommas cs

/-- One line of a program (R54): a comment runs from `;` to the end; before it a mnemonic in upper case and its
operands, separated by commas. A line with no command, empty or a comment only, is accepted and gives no word: R54
does not say (log entry 11). -/
def assembleLine (line : List Char) : AsmLine :=
  match trimBlanks (line.takeWhile (fun c => c != ';')) with
  | [] => .blank
  | cs =>
    let mnemonic := cs.takeWhile (fun c => !isBlank c)
    match asmFields mnemonic, operandValues (operandTexts (cs.drop mnemonic.length)) with
    | some (w, fields), some vs =>
      match placeOperands w fields vs with
      | some w =>
        match decode w with
        | .command i => .command i
        | .illegal _ => .error
      | none => .error
    | _, _ => .error

/-- The command words of a program, line by line; a line with no command gives no word, and a line in error gives the
whole program no words (log entry 11). -/
def assemble : List (List Char) → Option (List Word)
  | [] => some []
  | line :: rest =>
    match assembleLine line, assemble rest with
    | .blank, ws => ws
    | .command i, some ws => some (encode i :: ws)
    | _, _ => none

end Sys2Proof.Machine
end

