-- ==== Sys2Proof/Safety.lean ====
section
/-! DEFINITION. What the spec says of the machine as a whole: which command faults and with what cause (R167),
the transition table (R127), and the invariants of R26 in terms of the message absorbed so far. -/

namespace Sys2Proof.Machine

/-- The core runs: it has taken no fault since hardware reset (R168). -/
abbrev Running (s : State) : Prop := s.st ≠ .fault

/-- The cause a command faults with, from ST, VAR and its operands; the state check comes before the range
check, and in FAULT nothing faults (R160, R167, and the table of R127). -/
def faultCause (st : HasherState) (var : Variant) : Instr → Option Cause
  | .reset => if st = .idle then some .usageIdle else none
  | .absorb _ | .final =>
    match st with
    | .idle => some .usageIdle
    | .finalized => some .usageFinalized
    | .accepting | .fault => none
  | .dget i =>
    match st with
    | .idle | .accepting => some .noDigest
    | .finalized => if variantOut var ≤ i then some .range else none
    | .fault => none
  | .wput i _ | .wget i => if st = .fault then none else if 128 ≤ i then some .range else none
  | .nop | .init _ => none
  | .addcx _ _ | .addca _ _ | .subb _ | .shift _ | .mixc _ => none
  | .rndx _ _ | .rnda _ _ | .permx _ | .perma _ => none
  | .gfmul _ _ | .gfinv _ | .sbox _ _ => none

/-- ST after a command that does not fault (R127). -/
def stAfter (st : HasherState) : Instr → HasherState
  | .init _ | .reset => if st = .fault then .fault else .accepting
  | .final => if st = .accepting then .finalized else st
  | .nop | .absorb _ | .dget _ | .wput _ _ | .wget _ => st
  | .addcx _ _ | .addca _ _ | .subb _ | .shift _ | .mixc _ => st
  | .rndx _ _ | .rnda _ _ | .permx _ | .perma _ => st
  | .gfmul _ _ | .gfinv _ | .sbox _ _ => st

/-- Byte `n` of a register array: what a statement about every byte reads. -/
def byteAt {k : Nat} (v : Vector Byte k) (n : Nat) : Byte := v.toList.getD n 0

/-- `t` is `s` but for the working matrix, whose byte in row `i` of column `j` is `f i j` for the geometry `g`, and
whose bytes from 8c on are as before (R93). -/
def WorkingResult (g : Geom) (s t : State) (f : Nat → Nat → Byte) : Prop :=
  t = { s with w := t.w } ∧
  (∀ i j, i < 8 → j < cols g → byteAt t.w (8 * j + i) = f i j) ∧
  (∀ n, blockBytes g ≤ n → n < 128 → byteAt t.w n = byteAt s.w n)

/-- Commands executed one after another (R40). -/
def execAll : List Instr → State → Result
  | [], s => .next s
  | i :: is, s =>
    match exec i s with
    | .next t => execAll is t
    | .fault r => .fault r
    | .refused r => .refused r

/-- A message with its padding: its complete blocks as they are, then `Pad` of the tail (R114, R125). -/
def paddedMessage (nb : Nat) (m : Bytes) : Bytes :=
  m.take (m.length / nb * nb) ++ pad nb (m.drop (m.length / nb * nb)) (8 * m.length % 2 ^ 96)

/-- The engine-direct and the GF and table commands: they touch no hasher register (R19, R49). -/
def engineDirect : Instr → Bool
  | .wput _ _ | .wget _ => true
  | .addcx _ _ | .addca _ _ | .subb _ | .shift _ | .mixc _ => true
  | .rndx _ _ | .rnda _ _ | .permx _ | .perma _ => true
  | .gfmul _ _ | .gfinv _ | .sbox _ _ => true
  | .nop | .init _ | .reset | .absorb _ | .final | .dget _ => false

/-- R18, R26 (a): ST is FAULT if and only if CAUSE is not NONE. -/
abbrev CauseMatches (s : State) : Prop := s.st = .fault ↔ s.cause ≠ .none

/-- The hasher is ACCEPTING and has absorbed exactly the bytes `m` since the last INIT or RESET (R15, R16, R26 (b)
and (c)): the tail of `m` is in the buffer, `L` counts its bits modulo 2^96, and `H` is the chain value after its
complete blocks. -/
structure Absorbed (m : Bytes) (s : State) : Prop where
  accepting : s.st = .accepting
  fill : s.blen.toNat = m.length % variantBlock s.var
  buffered : firstBytes s.b s.blen.toNat = m.drop (m.length / variantBlock s.var * variantBlock s.var)
  counted : s.l.toNat = 8 * m.length % 2 ^ 96
  chained : firstBytes s.h (variantBlock s.var) =
    chainBlocks (variantGeom s.var) (ivBytes (variantGeom s.var)) m (m.length / variantBlock s.var)

/-- FINAL has been executed after exactly the bytes `m`: DIGEST holds Kupyna(VAR, m) (R26 (d), R125). -/
structure Digested (m : Bytes) (s : State) : Prop where
  finalized : s.st = .finalized
  digest : firstBytes s.digest (variantOut s.var) = kupyna s.var m

/-- R26, at every command boundary. -/
structure BoundaryInv (s : State) : Prop where
  cause : CauseMatches s
  absorbed : s.st = .accepting → ∃ m, Absorbed m s
  digested : s.st = .finalized → ∃ m, Digested m s

end Sys2Proof.Machine
end

