-- ==== Sys2Proof/Certificates/Slice0/Obligations.lean ====
section
/-! DEFINITION. The statements for the provers, in the order of the spec's files. -/

section

open Sys2Proof Sys2Proof.Machine

/-! ## Encoding -/

/-- R47 to R49: decoding the word of any well-formed command gives that command, for every operand value. -/
def Obligations.CommandWordsRoundTrip : Prop :=
  ∀ i : Instr, i.WellFormed = true → decode (encode i) = .command i

/-- R47 to R50: a word that decodes is the word of its command, and the command is well formed. -/
def Obligations.DecodedWordsEncodeBack : Prop :=
  ∀ (w : Word) (i : Instr), decode w = .command i → i.WellFormed = true ∧ encode i = w

/-- R48, R49, R50: row by row, a word is the command of a row iff `(w & mask) == match`, its operands are the
fields of R48, and a word that is the command of no row is illegal. -/
def Obligations.DecoderFollowsOpcodeMap : Prop :=
  ∀ w : Word,
    (decode w = .command .nop ↔ w &&& 0xFFFFFFFF = 0x00000000) ∧
    (∀ v, decode w = .command (.init v) ↔
      w &&& 0xFFFFFFFC = 0x01000000 ∧ v = variantOfCode (w.extractLsb' 0 2)) ∧
    (decode w = .command .reset ↔ w &&& 0xFFFFFFFF = 0x02000000) ∧
    (∀ b, decode w = .command (.absorb b) ↔ w &&& 0xFFFFFF00 = 0x03000000 ∧ b = w.extractLsb' 0 8) ∧
    (decode w = .command .final ↔ w &&& 0xFFFFFFFF = 0x04000000) ∧
    (∀ i, decode w = .command (.dget i) ↔
      w &&& 0xFFFFFF00 = 0x05000000 ∧ i = (w.extractLsb' 0 8).toNat) ∧
    (∀ i b, decode w = .command (.wput i b) ↔
      w &&& 0xFFFF0000 = 0x10000000 ∧ i = (w.extractLsb' 8 8).toNat ∧ b = w.extractLsb' 0 8) ∧
    (∀ i, decode w = .command (.wget i) ↔
      w &&& 0xFFFF00FF = 0x11000000 ∧ i = (w.extractLsb' 8 8).toNat) ∧
    (∀ g nu, decode w = .command (.addcx g nu) ↔
      w &&& 0xFFFEFF00 = 0x12000000 ∧ (g = .g16 ↔ w.getLsbD 16 = true) ∧ nu = w.extractLsb' 0 8) ∧
    (∀ g nu, decode w = .command (.addca g nu) ↔
      w &&& 0xFFFEFF00 = 0x13000000 ∧ (g = .g16 ↔ w.getLsbD 16 = true) ∧ nu = w.extractLsb' 0 8) ∧
    (∀ g, decode w = .command (.subb g) ↔
      w &&& 0xFFFEFFFF = 0x14000000 ∧ (g = .g16 ↔ w.getLsbD 16 = true)) ∧
    (∀ g, decode w = .command (.shift g) ↔
      w &&& 0xFFFEFFFF = 0x15000000 ∧ (g = .g16 ↔ w.getLsbD 16 = true)) ∧
    (∀ g, decode w = .command (.mixc g) ↔
      w &&& 0xFFFEFFFF = 0x16000000 ∧ (g = .g16 ↔ w.getLsbD 16 = true)) ∧
    (∀ g nu, decode w = .command (.rndx g nu) ↔
      w &&& 0xFFFEFF00 = 0x17000000 ∧ (g = .g16 ↔ w.getLsbD 16 = true) ∧ nu = w.extractLsb' 0 8) ∧
    (∀ g nu, decode w = .command (.rnda g nu) ↔
      w &&& 0xFFFEFF00 = 0x18000000 ∧ (g = .g16 ↔ w.getLsbD 16 = true) ∧ nu = w.extractLsb' 0 8) ∧
    (∀ g, decode w = .command (.permx g) ↔
      w &&& 0xFFFEFFFF = 0x19000000 ∧ (g = .g16 ↔ w.getLsbD 16 = true)) ∧
    (∀ g, decode w = .command (.perma g) ↔
      w &&& 0xFFFEFFFF = 0x1A000000 ∧ (g = .g16 ↔ w.getLsbD 16 = true)) ∧
    (∀ a b, decode w = .command (.gfmul a b) ↔
      w &&& 0xFFFF0000 = 0x20000000 ∧ a = w.extractLsb' 8 8 ∧ b = w.extractLsb' 0 8) ∧
    (∀ a, decode w = .command (.gfinv a) ↔ w &&& 0xFFFFFF00 = 0x21000000 ∧ a = w.extractLsb' 0 8) ∧
    (∀ k a, decode w = .command (.sbox k a) ↔
      w &&& 0xFFFFFC00 = 0x22000000 ∧ k.val = (w.extractLsb' 8 2).toNat ∧ a = w.extractLsb' 0 8) ∧
    ((∃ why, decode w = .illegal why) ↔ ∀ r ∈ opcodeTable, w &&& r.mask ≠ r.value)

/-- R49, R54: a few words written out from the encodings decode to their commands. -/
def Obligations.SampleWordsDecode : Prop :=
  decode 0x00000000 = .command .nop ∧ decode 0x01000001 = .command (.init .k256) ∧
  decode 0x030000FF = .command (.absorb 0xFF) ∧ decode 0x04000000 = .command .final ∧
  decode 0x0500001F = .command (.dget 31) ∧ decode 0x10000980 = .command (.wput 9 0x80) ∧
  decode 0x11007F00 = .command (.wget 127) ∧ decode 0x1801000D = .command (.rnda .g16 13) ∧
  decode 0x19000000 = .command (.permx .g8) ∧ decode 0x20000280 = .command (.gfmul 0x02 0x80) ∧
  decode 0x220003FF = .command (.sbox 3 0xFF) ∧ decode 0x05010000 = .illegal .reservedBit ∧
  decode 0x06000000 = .illegal .undefinedOpcode

/-- R51, R166: a word is illegal exactly when its opcode is none of the twenty listed or it has a reserved bit set;
an accepted illegal word raises ILLEGAL unless the core is in FAULT, and is never executed. That the word is taken off
a list of inputs is the model's choice (log entry 2). -/
def Obligations.IllegalWordsFault : Prop :=
  (∀ w : Word, decode w = .illegal .undefinedOpcode ↔
    (0x06 ≤ (fieldOp w).toNat ∧ (fieldOp w).toNat ≤ 0x0F) ∨
    (0x1B ≤ (fieldOp w).toNat ∧ (fieldOp w).toNat ≤ 0x1F) ∨ 0x23 ≤ (fieldOp w).toNat) ∧
  (∀ w : Word, decode w = .illegal .reservedBit ↔
    ∃ r ∈ opcodeTable, fieldOp w = fieldOp r.value ∧ w &&& r.mask ≠ r.value) ∧
  (∀ (s : State) (w : Word) (why : Illegal) (rest : List HostInput),
    s.host = .command w :: rest → decode w = .illegal why → s.st ≠ .fault →
    step s = .next { s with host := rest, st := .fault, cause := .illegal })

/-! ## The step -/

/-- R40, R46, R167: when the host presents a word that decodes to a command, the step takes the word off the
host's inputs and is the execution of that command. The list of inputs is the model's choice (log entry 2). -/
def Obligations.StepRunsDecodedCommand : Prop :=
  ∀ (s : State) (w : Word) (rest : List HostInput) (i : Instr),
    s.host = .command w :: rest → decode w = .command i → step s = exec i { s with host := rest }

/-- R46, R181: a word that is not accepted has no effect and is not remembered, and the core does nothing while
nothing is presented. The list of inputs is the model's choice (log entry 2). -/
def Obligations.NothingAcceptedNothingDone : Prop :=
  ∀ s : State,
    (s.host = [] → step s = .next s) ∧
    (∀ rest, s.host = .idle :: rest → step s = .next { s with host := rest }) ∧
    (∀ w rest, s.host = .notReady w :: rest → step s = .next { s with host := rest })

/-- R24, R180, R181: hardware reset, between two commands or while one is in progress, clears the scalars whatever
the state was; it ends no run. That a reset is one entry of the list of inputs is the model's choice (log entries 2
and 5). -/
def Obligations.HardwareResetClearsScalars : Prop :=
  ∀ (s : State) (rest : List HostInput),
    (s.host = .reset :: rest ∨ ∃ w, s.host = .resetDuring w :: rest) →
    ∃ t, step s = .next t ∧ t.st = .idle ∧ t.cause = .none ∧ t.var = .k48 ∧ t.blen = 0 ∧ t.l = 0 ∧ t.r = 0 ∧
      t.host = rest ∧ t.outputs = ⟨0, 0, 0⟩

/-- R24, R181: the scalars right after the first hardware reset, and what the outputs show. -/
def Obligations.ResetStateScalars : Prop :=
  State.reset.st = .idle ∧ State.reset.cause = .none ∧ State.reset.var = .k48 ∧ State.reset.blen = 0 ∧
  State.reset.l = 0 ∧ State.reset.r = 0 ∧ State.reset.outputs = ⟨0, 0, 0⟩

/-- R168: in FAULT every command and every accepted word, legal or not, has no effect at all, and a step leaves
FAULT only by hardware reset. The list of inputs is the model's choice (log entry 2). -/
def Obligations.FaultStateIsTerminal : Prop :=
  ∀ s : State, s.st = .fault →
    (∀ i, exec i s = .next s) ∧
    (∀ w rest, s.host = .command w :: rest → step s = .next { s with host := rest }) ∧
    (∀ t, step s = .next t → t.st ≠ .fault ∨ t.cause ≠ s.cause →
      ∃ rest, s.host = .reset :: rest ∨ ∃ w, s.host = .resetDuring w :: rest)

/-- R196: every command and every step answers a next state; the machine never stops. -/
def Obligations.EveryStepAnswers : Prop :=
  (∀ (i : Instr) (s : State), ∃ t, exec i s = .next t) ∧ (∀ s : State, ∃ t, step s = .next t)

/-- R161, R167, R170: a command that faults writes ST and CAUSE and nothing else, with the cause that the priority
of R167 gives; a command that does not fault, in a running core, leaves it running with its CAUSE. -/
def Obligations.FaultsArePrecise : Prop :=
  ∀ (i : Instr) (s : State),
    (∀ x, faultCause s.st s.var i = some x → exec i s = .next { s with st := .fault, cause := x }) ∧
    (faultCause s.st s.var i = none → s.st ≠ .fault →
      ∃ t, exec i s = .next t ∧ t.st ≠ .fault ∧ t.cause = s.cause)

/-- R127: ST and CAUSE after every command and after an illegal word, from every ST: an entry F:x of the table faults
with cause x, and every other entry leaves CAUSE. -/
def Obligations.TransitionTableHolds : Prop :=
  (∀ (i : Instr) (s : State), ∃ t, exec i s = .next t ∧
    t.st = (if (faultCause s.st s.var i).isSome then .fault else stAfter s.st i) ∧
    t.cause = (faultCause s.st s.var i).getD s.cause) ∧
  (∀ (w : Word) (s : State) (why : Illegal), decode w = .illegal why →
    ∃ t, acceptWord w s = .next t ∧ t.st = .fault ∧ t.cause = if s.st = .fault then s.cause else .illegal)

/-- R28: a register outside a command's write columns is unchanged, whether the command faults or not. The host's
further inputs and the count of resets are never a command's to change. -/
def Obligations.CommandsWriteOnlyTheirRegisters : Prop :=
  ∀ (i : Instr) (s t : State), exec i s = .next t →
    (i.mnemonic ∉ ["INIT"] → t.var = s.var) ∧
    (i.mnemonic ∉ ["INIT", "RESET", "ABSORB", "FINAL"] → t.h = s.h) ∧
    (i.mnemonic ∉ ["ABSORB"] → t.b = s.b) ∧
    (i.mnemonic ∉ ["INIT", "RESET", "ABSORB"] → t.blen = s.blen ∧ t.l = s.l) ∧
    (i.mnemonic ∉ ["FINAL"] → t.digest = s.digest) ∧
    (i.mnemonic ∉ ["WPUT", "ADDCX", "ADDCA", "SUBB", "SHIFT", "MIXC", "RNDX", "RNDA", "PERMX", "PERMA"] →
      t.w = s.w) ∧
    (i.mnemonic ∉ ["DGET", "WGET", "GFMUL", "GFINV", "SBOX"] → t.r = s.r) ∧
    (t.st ≠ .fault → i.mnemonic ∉ ["INIT", "RESET", "FINAL"] → t.st = s.st) ∧
    (t.cause ≠ s.cause → t = { s with st := .fault, cause := t.cause }) ∧
    t.host = s.host ∧ t.resets = s.resets

/-- R12, R46, R53, R160: the outputs show the codes of ST and CAUSE and the value of R. -/
def Obligations.OutputsShowTheCodes : Prop :=
  ∀ s : State,
    s.outputs.r = s.r ∧
    (s.outputs.st = 0 ↔ s.st = .idle) ∧ (s.outputs.st = 1 ↔ s.st = .accepting) ∧
    (s.outputs.st = 2 ↔ s.st = .finalized) ∧ (s.outputs.st = 3 ↔ s.st = .fault) ∧
    (s.outputs.cause = 0 ↔ s.cause = .none) ∧ (s.outputs.cause = 1 ↔ s.cause = .usageFinalized) ∧
    (s.outputs.cause = 2 ↔ s.cause = .usageIdle) ∧ (s.outputs.cause = 3 ↔ s.cause = .noDigest) ∧
    (s.outputs.cause = 4 ↔ s.cause = .range) ∧ (s.outputs.cause = 5 ↔ s.cause = .illegal) ∧
    s.outputs.cause.toNat ≤ 5

/-! ## The hasher commands -/

/-- R120: NOP is the word 0 and has no effect in any state; any other word with opcode 0 is illegal. -/
def Obligations.NopHasNoEffect : Prop :=
  (∀ w, decode w = .command .nop ↔ w = 0) ∧
  (∀ w, fieldOp w = 0 → w ≠ 0 → decode w = .illegal .reservedBit) ∧
  ∀ s : State, exec .nop s = .next s

/-- R121, R78: INIT v, its word, and what it writes: VAR, the IV in the NB significant bytes of H, BLEN, L, ST. That
the dead bytes of H from NB on stay as they were is the model's reading of R27 (log entry 13). -/
def Obligations.InitStartsAHasher : Prop :=
  ∀ v : Variant,
    (∀ w, decode w = .command (.init v) ↔ w = packC32 0x01 0 0 ((codeOfVariant v).setWidth 8)) ∧
    ∀ s : State,
      (s.st = .fault → exec (.init v) s = .next s) ∧
      (s.st ≠ .fault → ∃ t, exec (.init v) s = .next t ∧
        t = { s with var := v, h := t.h, blen := 0, l := 0, st := .accepting } ∧
        byteAt t.h 0 = BitVec.ofNat 8 (variantBlock v) ∧
        (∀ n, 0 < n → n < variantBlock v → byteAt t.h n = 0) ∧
        (∀ n, variantBlock v ≤ n → n < 128 → byteAt t.h n = byteAt s.h n))

/-- R122: RESET, its word, its fault in IDLE, and in every state where it is legal exactly the effect of INIT VAR.
That the dead bytes of H from NB on stay as they were is the model's reading of R27 (log entry 13). -/
def Obligations.ResetRestartsTheHasher : Prop :=
  (∀ w, decode w = .command .reset ↔ w = 0x02000000) ∧
  ∀ s : State,
    (s.st = .fault → exec .reset s = .next s) ∧
    (s.st = .idle → exec .reset s = .next { s with st := .fault, cause := .usageIdle }) ∧
    (s.st = .accepting ∨ s.st = .finalized →
      exec .reset s = exec (.init s.var) s ∧
      ∃ t, exec .reset s = .next t ∧ t = { s with h := t.h, blen := 0, l := 0, st := .accepting } ∧
        byteAt t.h 0 = BitVec.ofNat 8 (variantBlock s.var) ∧
        (∀ n, 0 < n → n < variantBlock s.var → byteAt t.h n = 0) ∧
        (∀ n, variantBlock s.var ≤ n → n < 128 → byteAt t.h n = byteAt s.h n))

/-- R123: ABSORB b, its word, its faults, and what it does in ACCEPTING: the byte enters the buffer at BLEN and L
grows by 8; a block that is not complete changes nothing else but BLEN; a block that is complete is folded into H.
That the dead bytes of H and B from NB on stay as they were is the model's reading of R27 (log entry 13). -/
def Obligations.AbsorbTakesOneByte : Prop :=
  ∀ x : Byte,
    (∀ w, decode w = .command (.absorb x) ↔ w = packC32 0x03 0 0 x) ∧
    ∀ s : State,
      (s.st = .fault → exec (.absorb x) s = .next s) ∧
      (s.st = .idle → exec (.absorb x) s = .next { s with st := .fault, cause := .usageIdle }) ∧
      (s.st = .finalized → exec (.absorb x) s = .next { s with st := .fault, cause := .usageFinalized }) ∧
      (s.st = .accepting → s.blen.toNat + 1 < variantBlock s.var →
        ∃ t, exec (.absorb x) s = .next t ∧ t = { s with b := t.b, blen := t.blen, l := t.l } ∧
          t.blen.toNat = s.blen.toNat + 1 ∧ t.l.toNat = (s.l.toNat + 8) % 2 ^ 96 ∧
          byteAt t.b s.blen.toNat = x ∧
          ∀ n, n < 128 → n ≠ s.blen.toNat → byteAt t.b n = byteAt s.b n) ∧
      (s.st = .accepting → s.blen.toNat + 1 = variantBlock s.var →
        ∃ t, exec (.absorb x) s = .next t ∧ t = { s with b := t.b, blen := 0, l := t.l, h := t.h } ∧
          t.l.toNat = (s.l.toNat + 8) % 2 ^ 96 ∧
          byteAt t.b s.blen.toNat = x ∧
          (∀ n, n < 128 → n ≠ s.blen.toNat → byteAt t.b n = byteAt s.b n) ∧
          firstBytes t.h (variantBlock s.var) =
            compress (variantGeom s.var) (firstBytes s.h (variantBlock s.var))
              (firstBytes s.b s.blen.toNat ++ [x]) ∧
          ∀ n, variantBlock s.var ≤ n → n < 128 → byteAt t.h n = byteAt s.h n)

/-- R124: FINAL, its word, its faults, and what it does in ACCEPTING: H holds the chain value of the finalisation
loop, DIGEST the last OUT bytes of its output transform, ST is FINALIZED, and all else stays.
That the dead bytes of H from NB on stay as they were is the model's reading of R27 (log entry 13). -/
def Obligations.FinalProducesTheDigest : Prop :=
  (∀ w, decode w = .command .final ↔ w = 0x04000000) ∧
  ∀ s : State,
    (s.st = .fault → exec .final s = .next s) ∧
    (s.st = .idle → exec .final s = .next { s with st := .fault, cause := .usageIdle }) ∧
    (s.st = .finalized → exec .final s = .next { s with st := .fault, cause := .usageFinalized }) ∧
    (s.st = .accepting → s.blen.toNat < variantBlock s.var →
      ∃ t h, exec .final s = .next t ∧ t = { s with h := t.h, digest := t.digest, st := .finalized } ∧
        h = finalChain (variantGeom s.var) (firstBytes s.h (variantBlock s.var)) (firstBytes s.b s.blen.toNat)
          s.l.toNat ∧
        firstBytes t.h (variantBlock s.var) = h ∧
        (∀ n, variantBlock s.var ≤ n → n < 128 → byteAt t.h n = byteAt s.h n) ∧
        (∀ n, n < variantOut s.var →
          byteAt t.digest n =
            (outputTransform (variantGeom s.var) h).getD (variantBlock s.var - variantOut s.var + n) 0) ∧
        (∀ n, variantOut s.var ≤ n → n < 64 → byteAt t.digest n = byteAt s.digest n))

/-- R126: DGET i, its word, its faults (the state check first), and the digest byte in R. -/
def Obligations.DgetReadsTheDigest : Prop :=
  ∀ i : Nat,
    (∀ w, decode w = .command (.dget i) ↔ i < 256 ∧ w = packC32 0x05 0 0 (BitVec.ofNat 8 i)) ∧
    ∀ s : State,
      (s.st = .fault → exec (.dget i) s = .next s) ∧
      (s.st = .idle ∨ s.st = .accepting → exec (.dget i) s = .next { s with st := .fault, cause := .noDigest }) ∧
      (s.st = .finalized → variantOut s.var ≤ i →
        exec (.dget i) s = .next { s with st := .fault, cause := .range }) ∧
      (s.st = .finalized → i < variantOut s.var → exec (.dget i) s = .next { s with r := byteAt s.digest i })

/-! ## The working matrix -/

/-- R81: WPUT i, b, its word, its fault, and the one byte of W it writes. -/
def Obligations.WputWritesOneByte : Prop :=
  ∀ (i : Nat) (x : Byte),
    (∀ w, decode w = .command (.wput i x) ↔ i < 256 ∧ w = packC32 0x10 0 (BitVec.ofNat 8 i) x) ∧
    ∀ s : State,
      (s.st = .fault → exec (.wput i x) s = .next s) ∧
      (s.st ≠ .fault → 128 ≤ i → exec (.wput i x) s = .next { s with st := .fault, cause := .range }) ∧
      (s.st ≠ .fault → i < 128 → ∃ t, exec (.wput i x) s = .next t ∧ t = { s with w := t.w } ∧
        byteAt t.w i = x ∧ ∀ n, n < 128 → n ≠ i → byteAt t.w n = byteAt s.w n)

/-- R82: WGET i, its word, its fault, and the byte of W it reads into R. -/
def Obligations.WgetReadsOneByte : Prop :=
  ∀ i : Nat,
    (∀ w, decode w = .command (.wget i) ↔ i < 256 ∧ w = packC32 0x11 0 (BitVec.ofNat 8 i) 0) ∧
    ∀ s : State,
      (s.st = .fault → exec (.wget i) s = .next s) ∧
      (s.st ≠ .fault → 128 ≤ i → exec (.wget i) s = .next { s with st := .fault, cause := .range }) ∧
      (s.st ≠ .fault → i < 128 → exec (.wget i) s = .next { s with r := byteAt s.w i })

/-- R83, R88: ADDCX g, nu: row 0 of each column j gets `(16*j) ^ nu`, on 8 bits, by exclusive-or; every other
byte stays; the same ADDCX twice restores everything. -/
def Obligations.AddcxXorsTheRoundConstant : Prop :=
  ∀ (g : Geom) (nu : Byte),
    (∀ w, decode w = .command (.addcx g nu) ↔ w = packC32 0x12 (geomByte g) 0 nu) ∧
    ∀ s : State,
      (s.st = .fault → exec (.addcx g nu) s = .next s) ∧
      execAll [.addcx g nu, .addcx g nu] s = .next s ∧
      (s.st ≠ .fault → ∃ t, exec (.addcx g nu) s = .next t ∧
        WorkingResult g s t fun i j =>
          if i = 0 then byteAt s.w (8 * j) ^^^ (BitVec.ofNat 8 (16 * j) ^^^ nu) else byteAt s.w (8 * j + i))

/-- R84, R89, R33: ADDCA g, nu: each column, a little-endian 64-bit number, gets its constant added modulo 2^64;
all else stays. -/
def Obligations.AddcaAddsTheRoundConstant : Prop :=
  ∀ (g : Geom) (nu : Byte),
    (∀ w, decode w = .command (.addca g nu) ↔ w = packC32 0x13 (geomByte g) 0 nu) ∧
    ∀ s : State,
      (s.st = .fault → exec (.addca g nu) s = .next s) ∧
      (s.st ≠ .fault → ∃ t, exec (.addca g nu) s = .next t ∧
        t = { s with w := t.w } ∧
        (∀ j, j < cols g →
          leValue ((t.w.toList.drop (8 * j)).take 8) =
            (leValue ((s.w.toList.drop (8 * j)).take 8) +
              (0x00F0F0F0F0F0F0F3 ^^^ ((((cols g - 1 - j) <<< 4) ^^^ nu.toNat) <<< 56))) % 2 ^ 64) ∧
        (∀ n, blockBytes g ≤ n → n < 128 → byteAt t.w n = byteAt s.w n))

/-- R85, R90: SUBB g: each byte is replaced through the table of its row modulo 4; all else stays. -/
def Obligations.SubbSubstitutesByRow : Prop :=
  ∀ g : Geom,
    (∀ w, decode w = .command (.subb g) ↔ w = packC32 0x14 (geomByte g) 0 0) ∧
    ∀ s : State,
      (s.st = .fault → exec (.subb g) s = .next s) ∧
      (s.st ≠ .fault → ∃ t, exec (.subb g) s = .next t ∧
        WorkingResult g s t fun i j => sboxEntry (Fin.ofNat 4 i) (byteAt s.w (8 * j + i)))

/-- R77, R86, R91: SHIFT g: the byte in column j of row i goes to column `(j + d_i) mod c`, with `d_i = i` but
`d_7 = 11` for 16 columns; all else stays; c SHIFTs one after the other restore everything. -/
def Obligations.ShiftRotatesTheRows : Prop :=
  ∀ g : Geom,
    (∀ w, decode w = .command (.shift g) ↔ w = packC32 0x15 (geomByte g) 0 0) ∧
    ∀ s : State,
      (s.st = .fault → exec (.shift g) s = .next s) ∧
      execAll (List.replicate (cols g) (.shift g)) s = .next s ∧
      (s.st ≠ .fault → ∃ t, exec (.shift g) s = .next t ∧ t = { s with w := t.w } ∧
        (∀ i j, i < 8 → j < cols g →
          byteAt t.w (8 * ((j + if g = .g16 ∧ i = 7 then 11 else i) % cols g) + i) = byteAt s.w (8 * j + i)) ∧
        (∀ n, blockBytes g ≤ n → n < 128 → byteAt t.w n = byteAt s.w n))

/-- R76, R87, R92: MIXC g: each column becomes the MDS matrix times the column, the row of coefficients
`01 01 05 01 08 06 07 04` rotated right once per row; all else stays. -/
def Obligations.MixcMultipliesTheColumns : Prop :=
  ∀ g : Geom,
    (∀ w, decode w = .command (.mixc g) ↔ w = packC32 0x16 (geomByte g) 0 0) ∧
    ∀ s : State,
      (s.st = .fault → exec (.mixc g) s = .next s) ∧
      (s.st ≠ .fault → ∃ t, exec (.mixc g) s = .next t ∧
        WorkingResult g s t fun i j =>
          byteAt s.w (8 * j + i) ^^^ byteAt s.w (8 * j + (i + 1) % 8) ^^^
          gfmul 0x05 (byteAt s.w (8 * j + (i + 2) % 8)) ^^^ byteAt s.w (8 * j + (i + 3) % 8) ^^^
          gfmul 0x08 (byteAt s.w (8 * j + (i + 4) % 8)) ^^^ gfmul 0x06 (byteAt s.w (8 * j + (i + 5) % 8)) ^^^
          gfmul 0x07 (byteAt s.w (8 * j + (i + 6) % 8)) ^^^ gfmul 0x04 (byteAt s.w (8 * j + (i + 7) % 8)))

/-! ## Rounds and permutations -/

/-- R94, R98: RNDX g, nu has exactly the effect of ADDCX g, nu; SUBB g; SHIFT g; MIXC g, and it changes W only. -/
def Obligations.RndxIsFourSteps : Prop :=
  ∀ (g : Geom) (nu : Byte),
    (∀ w, decode w = .command (.rndx g nu) ↔ w = packC32 0x17 (geomByte g) 0 nu) ∧
    ∀ s : State,
      (s.st = .fault → exec (.rndx g nu) s = .next s) ∧
      (s.st ≠ .fault → ∃ t, exec (.rndx g nu) s = .next t ∧ t = { s with w := t.w } ∧
        execAll [.addcx g nu, .subb g, .shift g, .mixc g] s = .next t)

/-- R95, R99: RNDA g, nu has exactly the effect of ADDCA g, nu; SUBB g; SHIFT g; MIXC g, and it changes W only. -/
def Obligations.RndaIsFourSteps : Prop :=
  ∀ (g : Geom) (nu : Byte),
    (∀ w, decode w = .command (.rnda g nu) ↔ w = packC32 0x18 (geomByte g) 0 nu) ∧
    ∀ s : State,
      (s.st = .fault → exec (.rnda g nu) s = .next s) ∧
      (s.st ≠ .fault → ∃ t, exec (.rnda g nu) s = .next t ∧ t = { s with w := t.w } ∧
        execAll [.addca g nu, .subb g, .shift g, .mixc g] s = .next t)

/-- R96, R100: PERMX g has exactly the effect of RNDX g, 0; ...; RNDX g, NR-1: 10 rounds for g = 0, 14 for g = 1,
whatever VAR is; it changes W only. -/
def Obligations.PermxIsTheRounds : Prop :=
  ∀ g : Geom,
    (∀ w, decode w = .command (.permx g) ↔ w = packC32 0x19 (geomByte g) 0 0) ∧
    ∀ s : State,
      (s.st = .fault → exec (.permx g) s = .next s) ∧
      (s.st ≠ .fault → ∃ t, exec (.permx g) s = .next t ∧ t = { s with w := t.w } ∧
        execAll ((List.range (if g = .g8 then 10 else 14)).map fun nu => .rndx g (BitVec.ofNat 8 nu)) s = .next t)

/-- R97, R101: PERMA g has exactly the effect of RNDA g, 0; ...; RNDA g, NR-1; it changes W only. -/
def Obligations.PermaIsTheRounds : Prop :=
  ∀ g : Geom,
    (∀ w, decode w = .command (.perma g) ↔ w = packC32 0x1A (geomByte g) 0 0) ∧
    ∀ s : State,
      (s.st = .fault → exec (.perma g) s = .next s) ∧
      (s.st ≠ .fault → ∃ t, exec (.perma g) s = .next t ∧ t = { s with w := t.w } ∧
        execAll ((List.range (if g = .g8 then 10 else 14)).map fun nu => .rnda g (BitVec.ofNat 8 nu)) s = .next t)

/-- R93: a step, round or permutation command with g = 0 neither reads nor writes W[64..127], and no such command
writes any register but W. -/
def Obligations.NarrowCommandsKeepTheUpperHalf : Prop :=
  ∀ (i : Instr) (s s' t t' : State), (∃ nu, i ∈ [.addcx .g8 nu, .addca .g8 nu, .subb .g8, .shift .g8, .mixc .g8,
      .rndx .g8 nu, .rnda .g8 nu, .permx .g8, .perma .g8]) →
    s.st ≠ .fault → s'.st ≠ .fault → exec i s = .next t → exec i s' = .next t' →
    t = { s with w := t.w } ∧
    (∀ n, 64 ≤ n → n < 128 → byteAt t.w n = byteAt s.w n) ∧
    ((∀ n, n < 64 → byteAt s.w n = byteAt s'.w n) → ∀ n, n < 64 → byteAt t.w n = byteAt t'.w n)

/-- R87: MixColumns is linear over GF(2), and a zero matrix stays zero. -/
def Obligations.MixColumnsIsLinear : Prop :=
  ∀ g : Geom,
    (∀ m n : Bytes, m.length = blockBytes g → n.length = blockBytes g →
      mixColumns g (xorBytes m n) = xorBytes (mixColumns g m) (mixColumns g n)) ∧
    mixColumns g (List.replicate (blockBytes g) 0) = List.replicate (blockBytes g) 0

/-- R96, R97: Tx and Ta are bijections on 8c-byte strings. -/
def Obligations.PermutationsAreBijections : Prop :=
  ∀ g : Geom,
    (∀ m, m.length = blockBytes g → (permX g m).length = blockBytes g ∧ (permA g m).length = blockBytes g) ∧
    (∀ m n, m.length = blockBytes g → n.length = blockBytes g → permX g m = permX g n → m = n) ∧
    (∀ m n, m.length = blockBytes g → n.length = blockBytes g → permA g m = permA g n → m = n)

/-! ## GF and tables -/

/-- R61, R63: GFMUL a, b puts into R the exclusive-or of `xtime^k(a)` over the set bits k of b, and changes nothing
else. -/
def Obligations.GfmulMultiplies : Prop :=
  ∀ a b : Byte,
    (∀ w, decode w = .command (.gfmul a b) ↔ w = packC32 0x20 0 a b) ∧
    ∀ s : State,
      (s.st = .fault → exec (.gfmul a b) s = .next s) ∧
      (s.st ≠ .fault → exec (.gfmul a b) s =
        .next { s with r := (((List.range 8).filter b.getLsbD).map fun k =>
          Nat.iterate (fun t : Byte => (t <<< 1) ^^^ (if t.getLsbD 7 then 0x1D else 0)) k a).foldr (· ^^^ ·) 0 })

/-- R62, R64: GFINV a puts into R the unique u with `gfmul(a, u) = 1`, or 0 for a = 0, and changes nothing else. -/
def Obligations.GfinvInverts : Prop :=
  ∀ a : Byte,
    (∀ w, decode w = .command (.gfinv a) ↔ w = packC32 0x21 0 0 a) ∧
    ∀ s : State,
      (s.st = .fault → exec (.gfinv a) s = .next s) ∧
      (s.st ≠ .fault → ∃ u, exec (.gfinv a) s = .next { s with r := u } ∧
        (a = 0 → u = 0) ∧ (a ≠ 0 → gfmul a u = 1 ∧ ∀ u', gfmul a u' = 1 → u' = u))

/-- R75: SBOX k, a puts S_k[a] into R and changes nothing else. -/
def Obligations.SboxLooksUp : Prop :=
  ∀ (k : Fin 4) (a : Byte),
    (∀ w, decode w = .command (.sbox k a) ↔ w = packC32 0x22 0 (BitVec.ofNat 8 k.val) a) ∧
    ∀ s : State,
      (s.st = .fault → exec (.sbox k a) s = .next s) ∧
      (s.st ≠ .fault → exec (.sbox k a) s = .next { s with r := sboxEntry k a })

/-- R71 to R74: the spot values of the four tables, no fixed point, and each table is a permutation of the bytes. -/
def Obligations.TablesArePermutations : Prop :=
  [sboxEntry 0 0x00, sboxEntry 0 0x01, sboxEntry 0 0x80, sboxEntry 0 0xFF] = [0xA8, 0x43, 0x9B, 0x80] ∧
  [sboxEntry 1 0x00, sboxEntry 1 0x01, sboxEntry 1 0x80, sboxEntry 1 0xFF] = [0xCE, 0xBB, 0x2A, 0xD7] ∧
  [sboxEntry 2 0x00, sboxEntry 2 0x01, sboxEntry 2 0x80, sboxEntry 2 0xFF] = [0x93, 0xD9, 0x87, 0x67] ∧
  [sboxEntry 3 0x00, sboxEntry 3 0x01, sboxEntry 3 0x80, sboxEntry 3 0xFF] = [0x68, 0x8D, 0x34, 0x61] ∧
  ∀ k, (∀ a, sboxEntry k a ≠ a) ∧ Function.Bijective (sboxEntry k)

/-- R65: the laws of the field, and the order and first powers of the element 02. -/
def Obligations.FieldLawsHold : Prop :=
  (∀ a b, gfmul a b = gfmul b a) ∧
  (∀ a b d, gfmul a (gfmul b d) = gfmul (gfmul a b) d) ∧
  (∀ a b d, gfmul a (b ^^^ d) = gfmul a b ^^^ gfmul a d) ∧
  (∀ a, gfmul a 1 = a) ∧ (∀ a, gfmul a 0 = 0) ∧
  (∀ a b, gfmul a b = 0 → a = 0 ∨ b = 0) ∧
  (∀ a, a ≠ 0 → gfmul a (gfinv a) = 1 ∧ gfinv (gfinv a) = a) ∧
  Function.Bijective gfinv ∧ gfinv 0 = 0 ∧ gfinv 1 = 1 ∧
  Nat.iterate (gfmul 2) 255 1 = 1 ∧ (∀ n, 0 < n → n < 255 → Nat.iterate (gfmul 2) n 1 ≠ 1) ∧
  (List.range 17).map (fun n => Nat.iterate (gfmul 2) n 1) =
    [0x01, 0x02, 0x04, 0x08, 0x10, 0x20, 0x40, 0x80, 0x1D, 0x3A, 0x74, 0xE8, 0xCD, 0x87, 0x13, 0x26, 0x4C]

/-! ## Compression, padding, the digest -/

/-- R104, R107 (b) and (d): for NB-byte strings, `Compress(h, m) ^ h = Tx(h ^ m) ^ Ta(m)`, and the result has NB
bytes. -/
def Obligations.CompressCombinesTheBranches : Prop :=
  ∀ (g : Geom) (h m : Bytes), h.length = blockBytes g → m.length = blockBytes g →
    (compress g h m).length = blockBytes g ∧
    xorBytes (compress g h m) h = xorBytes (permX g (xorBytes h m)) (permA g m)

/-- R111: the padded region is one block when `r + 13 <= NB` and two blocks otherwise. -/
def Obligations.PaddingFillsOneOrTwoBlocks : Prop :=
  ∀ (g : Geom) (b : Bytes) (l : Nat), b.length < blockBytes g →
    (pad (blockBytes g) b l).length = if b.length + 13 ≤ blockBytes g then blockBytes g else 2 * blockBytes g

/-- R114: (a) the length, (b) the buffered bytes and 0x80, (c) the length field, (d) zeros between, (e) the whole
padded message is the least multiple of NB that holds 13 more bytes, (f) padding is injective below 2^96 bits. -/
def Obligations.PaddingHasTheStatedShape : Prop :=
  ∀ g : Geom,
    (∀ (b : Bytes) (l : Nat), b.length < blockBytes g →
      ((pad (blockBytes g) b l).length = blockBytes g ∨ (pad (blockBytes g) b l).length = 2 * blockBytes g) ∧
      (pad (blockBytes g) b l).take b.length = b ∧
      (pad (blockBytes g) b l).getD b.length 0 = 0x80 ∧
      (pad (blockBytes g) b l).drop ((pad (blockBytes g) b l).length - 12) = bytesLE 12 l ∧
      (∀ n, b.length < n → n < (pad (blockBytes g) b l).length - 12 → (pad (blockBytes g) b l).getD n 0 = 0)) ∧
    (∀ m : Bytes,
      blockBytes g ∣ (paddedMessage (blockBytes g) m).length ∧
      m.length + 13 ≤ (paddedMessage (blockBytes g) m).length ∧
      (paddedMessage (blockBytes g) m).length < m.length + 13 + blockBytes g) ∧
    (∀ m m' : Bytes, 8 * m.length < 2 ^ 96 → 8 * m'.length < 2 ^ 96 →
      paddedMessage (blockBytes g) m = paddedMessage (blockBytes g) m' → m = m')

/-- R107 (a) and (c): the Kupyna-48 digest is the last 6 bytes of the Kupyna-256 digest, the Kupyna-384 digest the
last 48 of the Kupyna-512 digest, and the length of a digest is OUT. -/
def Obligations.ShorterDigestsAreTails : Prop :=
  ∀ m : Bytes,
    kupyna .k48 m = (kupyna .k256 m).drop 26 ∧ kupyna .k384 m = (kupyna .k512 m).drop 16 ∧
    ∀ v, (kupyna v m).length = variantOut v

/-- R121, R26: INIT v begins the hasher of the empty message. -/
def Obligations.InitBeginsTheEmptyMessage : Prop :=
  ∀ (v : Variant) (s : State), s.st ≠ .fault → ∃ t, exec (.init v) s = .next t ∧ Absorbed [] t ∧ t.var = v

/-- R123, R26 (b) and (c): ABSORB b extends the absorbed message by b. -/
def Obligations.AbsorbExtendsTheMessage : Prop :=
  ∀ (m : Bytes) (x : Byte) (s : State), Absorbed m s →
    ∃ t, exec (.absorb x) s = .next t ∧ Absorbed (m ++ [x]) t ∧ t.var = s.var

/-- R125: FINAL after the message m leaves Kupyna(VAR, m) in DIGEST. -/
def Obligations.FinalDigestsTheMessage : Prop :=
  ∀ (m : Bytes) (s : State), Absorbed m s → ∃ t, exec .final s = .next t ∧ Digested m t ∧ t.var = s.var

/-- R128: NOP, the engine-direct commands, GFMUL, GFINV and SBOX may stand anywhere without changing the message
absorbed so far or the digest produced, as long as they do not fault. -/
def Obligations.OtherCommandsKeepTheMessage : Prop :=
  ∀ (i : Instr) (m : Bytes) (s t : State), i = .nop ∨ engineDirect i = true → exec i s = .next t → t.st ≠ .fault →
    (Absorbed m s → Absorbed m t) ∧ (Digested m s → Digested m t)

/-- R55, R125, R129: HASH, executed from any state that is not FAULT, ends FINALIZED with Kupyna(v, m) in DIGEST,
whatever the state held before. -/
def Obligations.HashComputesKupyna : Prop :=
  ∀ (v cur : Variant) (m : Bytes) (s : State), s.st ≠ .fault →
    ∃ t, execAll (expandPseudo cur (.hash v m)) s = .next t ∧ t.var = v ∧ Digested m t

/-- R55, R128: from a state that has absorbed `m`, UPDATE a answers a state that has absorbed `m ++ a`, and UPDATE c
from there and UPDATE of `a ++ c` from the start answer one and the same state, which has absorbed `m ++ a ++ c`. -/
def Obligations.UpdateIgnoresChunking : Prop :=
  ∀ (cur : Variant) (m a c : Bytes) (s : State), Absorbed m s →
    ∃ t u, execAll (expandPseudo cur (.update a)) s = .next t ∧ Absorbed (m ++ a) t ∧ t.var = s.var ∧
      execAll (expandPseudo cur (.update c)) t = .next u ∧
      execAll (expandPseudo cur (.update (a ++ c))) s = .next u ∧ Absorbed (m ++ a ++ c) u ∧ u.var = s.var

/-- R19, R129: no hasher command reads or writes W: with any other working matrix it does the same, and keeps that
matrix. No engine-direct command depends on the hasher registers. -/
def Obligations.HasherAndEngineAreSeparate : Prop :=
  (∀ (i : Instr) (s t : State) (x : Vector Byte 128), engineDirect i = false → exec i s = .next t →
    exec i { s with w := x } = .next { t with w := x }) ∧
  (∀ (i : Instr) (s s' t t' : State), engineDirect i = true → s.st ≠ .fault → s'.st ≠ .fault → s.w = s'.w →
    s.r = s'.r → exec i s = .next t → exec i s' = .next t' →
    t.w = t'.w ∧ t.r = t'.r ∧
    t = { s with st := t.st, cause := t.cause, w := t.w, r := t.r } ∧
    (t.st = .fault ↔ t'.st = .fault))

/-! ## Invariants -/

/-- R26: whatever the state, if R26 holds in it then it holds after every step. -/
def Obligations.BoundaryInvariantIsKept : Prop :=
  ∀ s t : State, BoundaryInv s → step s = .next t → BoundaryInv t

/-- R26: it holds right after reset, before the first command. -/
def Obligations.BoundaryInvariantAtReset : Prop := BoundaryInv State.reset

/-- R15, R18: the decidable part of R26 is kept by every step on its own: CAUSE is NONE exactly outside FAULT, and
while ACCEPTING the buffer holds less than a block. -/
def Obligations.BufferNeverHoldsABlock : Prop :=
  ∀ s t : State, CauseMatches s → (s.st = .accepting → s.blen.toNat < variantBlock s.var) → step s = .next t →
    CauseMatches t ∧ (t.st = .accepting → t.blen.toNat < variantBlock t.var)

/-! ## Writing programs down -/

/-- R54: the example lines of the assembler syntax and their words. That the comment line among them gives no word is
the model's choice (log entry 11). -/
def Obligations.ExampleLinesAssemble : Prop :=
  assemble ["INIT K256".toList, "ABSORB 0xFF".toList, "FINAL".toList, "DGET 31".toList, "WPUT 9, 0x80".toList,
      "WGET 127".toList, "RNDA G16, 13".toList, "PERMX G8".toList, "GFMUL 0x02, 0x80".toList,
      "SBOX 3, 0xFF".toList, "; a comment".toList] =
    some [0x01000001, 0x030000FF, 0x04000000, 0x0500001F, 0x10000980, 0x11007F00, 0x1801000D, 0x19000000,
      0x20000280, 0x220003FF]

end
end

