-- ==== Sys2Proof/Laws/Bytes.lean ====
section
/-! SUPPORT. Lengths and bytes of the byte-string operations, each said once. -/

namespace Sys2Proof.Machine

@[simp] theorem blockBytes_g8 : blockBytes .g8 = 64 := rfl
@[simp] theorem blockBytes_g16 : blockBytes .g16 = 128 := rfl

theorem blockBytes_le (g : Geom) : blockBytes g ≤ 128 := by cases g <;> decide
theorem blockBytes_pos (g : Geom) : 0 < blockBytes g := by cases g <;> decide
theorem variantOut_le (v : Variant) : variantOut v ≤ 64 := by cases v <;> decide

@[simp] theorem length_matrix (g : Geom) (f : Nat → Nat → Byte) : (matrix g f).length = blockBytes g := by
  simp [matrix]

theorem getD_matrix (g : Geom) (f : Nat → Nat → Byte) {n : Nat} (h : n < blockBytes g) (d : Byte) :
    (matrix g f).getD n d = f (n % 8) (n / 8) := by
  simp [matrix, List.getD, h]

/-- Reading back a cell of a matrix given by its entries (R31). -/
@[simp] theorem cell_matrix (g : Geom) (f : Nat → Nat → Byte) {i j : Nat} (hi : i < 8) (hj : j < cols g) :
    cell (matrix g f) i j = f i j := by
  have hn : 8 * j + i < blockBytes g := by unfold blockBytes; omega
  have h1 : (8 * j + i) % 8 = i := by omega
  have h2 : (8 * j + i) / 8 = j := by omega
  rw [cell, getD_matrix g f hn, h1, h2]

@[simp] theorem length_addConstX (g : Geom) (m : Bytes) (nu : Byte) : (addConstX g m nu).length = blockBytes g :=
  length_matrix ..
@[simp] theorem length_addConstA (g : Geom) (m : Bytes) (nu : Byte) : (addConstA g m nu).length = blockBytes g :=
  length_matrix ..
@[simp] theorem length_subBytes (g : Geom) (m : Bytes) : (subBytes g m).length = blockBytes g := length_matrix ..
@[simp] theorem length_shiftBytes (g : Geom) (m : Bytes) : (shiftBytes g m).length = blockBytes g :=
  length_matrix ..
@[simp] theorem length_mixColumns (g : Geom) (m : Bytes) : (mixColumns g m).length = blockBytes g :=
  length_matrix ..
@[simp] theorem length_roundX (g : Geom) (m : Bytes) (nu : Byte) : (roundX g m nu).length = blockBytes g :=
  length_mixColumns ..
@[simp] theorem length_roundA (g : Geom) (m : Bytes) (nu : Byte) : (roundA g m nu).length = blockBytes g :=
  length_mixColumns ..

/-- A fold of functions that all give NB bytes gives NB bytes, once it runs at all. -/
theorem length_foldl_block {α : Type} (g : Geom) (f : Bytes → α → Bytes)
    (hf : ∀ m a, (f m a).length = blockBytes g) :
    ∀ (l : List α) (m : Bytes), l ≠ [] → (l.foldl f m).length = blockBytes g
  | [a], m, _ => hf m a
  | a :: b :: l, m, _ => length_foldl_block g f hf (b :: l) (f m a) (by simp)

@[simp] theorem length_permX (g : Geom) (m : Bytes) : (permX g m).length = blockBytes g :=
  length_foldl_block g _ (fun x nu => length_roundX g x (BitVec.ofNat 8 nu)) _ m (by cases g <;> decide)
@[simp] theorem length_permA (g : Geom) (m : Bytes) : (permA g m).length = blockBytes g :=
  length_foldl_block g _ (fun x nu => length_roundA g x (BitVec.ofNat 8 nu)) _ m (by cases g <;> decide)

@[simp] theorem length_xorBytes (x y : Bytes) : (xorBytes x y).length = min x.length y.length := by
  simp [xorBytes]

theorem length_compress (g : Geom) (h m : Bytes) (hh : h.length = blockBytes g) :
    (compress g h m).length = blockBytes g := by simp [compress, hh]

theorem length_outputTransform (g : Geom) (h : Bytes) (hh : h.length = blockBytes g) :
    (outputTransform g h).length = blockBytes g := by simp [outputTransform, hh]

@[simp] theorem length_truncate (nb out : Nat) (s : Bytes) : (truncate nb out s).length = out := by
  simp [truncate]

@[simp] theorem length_ivBytes (g : Geom) : (ivBytes g).length = blockBytes g := by cases g <;> rfl

@[simp] theorem length_bytesLE (n v : Nat) : (bytesLE n v).length = n := by simp [bytesLE]

@[simp] theorem length_firstBytes {n : Nat} (v : Vector Byte n) (k : Nat) :
    (firstBytes v k).length = min k n := by simp [firstBytes]

/-- Byte `i` after `A[0..len-1] <- x`: byte `i` of `x` below its length, the old byte from there on. -/
theorem getElem_writeFirst {n : Nat} (v : Vector Byte n) (x : Bytes) (i : Nat) (h : i < n) :
    (writeFirst v x)[i] = x.getD i v[i] := by simp [writeFirst]

theorem getElem_writeFirst_of_ge {n : Nat} (v : Vector Byte n) (x : Bytes) (i : Nat) (h : i < n)
    (hx : x.length ≤ i) : (writeFirst v x)[i] = v[i] := by
  rw [getElem_writeFirst, List.getD_eq_default _ _ hx]

/-- What was written first is what is read first. -/
@[simp] theorem firstBytes_writeFirst {n : Nat} (v : Vector Byte n) (x : Bytes) (h : x.length ≤ n) :
    firstBytes (writeFirst v x) x.length = x := by
  apply List.ext_getElem
  · simpa using h
  · intro i h1 h2
    have hi : i < n := by omega
    have := getElem_writeFirst v x i hi
    simp only [firstBytes, List.getElem_take, Vector.getElem_toList]
    rw [this, List.getD_eq_getElem _ _ h2]

/-- A second write of as many bytes hides the first. -/
theorem writeFirst_writeFirst {n : Nat} (v : Vector Byte n) (x y : Bytes) (h : x.length = y.length) :
    writeFirst (writeFirst v x) y = writeFirst v y := by
  apply Vector.ext
  intro i hi
  rw [getElem_writeFirst, getElem_writeFirst, getElem_writeFirst]
  by_cases hy : i < y.length
  · rw [List.getD_eq_getElem _ _ hy, List.getD_eq_getElem _ _ hy]
  · rw [List.getD_eq_default _ _ (by omega), List.getD_eq_default _ _ (by omega),
      List.getD_eq_default _ _ (by omega)]

end Sys2Proof.Machine
end

