-- ==== Sys2Proof/Laws/Decode.lean ====
section
/-! SUPPORT. What the decoder answers, said once: a word is a command exactly when a row of the opcode map matches
it, and no word matches two rows (spec/30_encoding.md R49, R50). -/

namespace Sys2Proof

/-- Every mask covers the opcode, so a row that matches has the word's opcode. -/
theorem fieldOp_of_rowMatches {w : Word} {r : Row} (hr : r ∈ opcodeTable) (h : rowMatches w r = true) :
    fieldOp w = fieldOp r.value := by
  have hm : ∀ r ∈ opcodeTable, r.mask.extractLsb' 24 8 = 0xFF := by decide
  have h1 : w &&& r.mask = r.value := by simpa [rowMatches] using h
  have h2 : (w &&& r.mask).extractLsb' 24 8 = fieldOp r.value := by rw [h1]; rfl
  rw [BitVec.extractLsb'_and, hm r hr] at h2
  rw [← h2]
  exact (BitVec.and_allOnes (x := w.extractLsb' 24 8)).symm

theorem opcodes_differ : opcodeTable.Pairwise fun r r' => fieldOp r.value ≠ fieldOp r'.value := by decide

/-- In a list in which no two members satisfy `p`, the member that does is the one `find?` finds. -/
theorem find?_eq_some_of_mem {α : Type} {p : α → Bool} :
    ∀ {l : List α}, l.Pairwise (fun a b => ¬ (p a = true ∧ p b = true)) →
      ∀ {a : α}, a ∈ l → p a = true → l.find? p = some a
  | b :: l, hl, a, ha, hp => by
    rw [List.pairwise_cons] at hl
    rcases List.mem_cons.1 ha with rfl | ha
    · simp [hp]
    · have hb : p b = false := by
        cases h : p b with
        | false => rfl
        | true => exact absurd ⟨h, hp⟩ (hl.1 a ha)
      rw [List.find?_cons, hb]
      exact find?_eq_some_of_mem hl.2 ha hp

/-- A word is the command `i` exactly when some row of the map matches it and its fields make `i`. -/
theorem decode_eq_command_iff {w : Word} {i : Instr} :
    decode w = .command i ↔ ∃ r ∈ opcodeTable, w &&& r.mask = r.value ∧ r.build w = i := by
  have hdis : opcodeTable.Pairwise fun r r' => ¬ (rowMatches w r = true ∧ rowMatches w r' = true) := by
    refine opcodes_differ.imp_of_mem ?_
    intro r r' hr hr' hne hboth
    exact hne ((fieldOp_of_rowMatches hr hboth.1).symm.trans (fieldOp_of_rowMatches hr' hboth.2))
  constructor
  · intro h
    unfold decode at h
    split at h
    · next r hf =>
      cases h
      exact ⟨r, List.mem_of_find?_eq_some hf, by simpa [rowMatches] using List.find?_some hf, rfl⟩
    · cases h
  · rintro ⟨r, hr, hm, rfl⟩
    simp [decode, find?_eq_some_of_mem hdis hr (by simpa [rowMatches] using hm)]

/-- A word is illegal exactly when no row of the map matches it. -/
theorem decode_eq_illegal_iff {w : Word} {why : Illegal} :
    decode w = .illegal why ↔ (∀ r ∈ opcodeTable, w &&& r.mask ≠ r.value) ∧ why = illegalReason w := by
  have h : opcodeTable.find? (rowMatches w) = none ↔ ∀ r ∈ opcodeTable, w &&& r.mask ≠ r.value := by
    simp only [List.find?_eq_none, rowMatches, beq_iff_eq, ne_eq]
  rw [← h]
  unfold decode
  cases opcodeTable.find? (rowMatches w) <;> simp [eq_comm]

end Sys2Proof
end

