-- ==== Sys2Proof/Laws/State.lean ====
section
/-! SUPPORT. One lemma per field per update of State, each true by rfl, so that no proof unfolds an update. -/

namespace Sys2Proof.Machine

/-! ## raiseFault -/

@[simp] theorem raiseFault_st (x : Cause) (s : State) : (raiseFault x s).st = .fault := rfl
@[simp] theorem raiseFault_var (x : Cause) (s : State) : (raiseFault x s).var = s.var := rfl
@[simp] theorem raiseFault_h (x : Cause) (s : State) : (raiseFault x s).h = s.h := rfl
@[simp] theorem raiseFault_b (x : Cause) (s : State) : (raiseFault x s).b = s.b := rfl
@[simp] theorem raiseFault_blen (x : Cause) (s : State) : (raiseFault x s).blen = s.blen := rfl
@[simp] theorem raiseFault_l (x : Cause) (s : State) : (raiseFault x s).l = s.l := rfl
@[simp] theorem raiseFault_digest (x : Cause) (s : State) : (raiseFault x s).digest = s.digest := rfl
@[simp] theorem raiseFault_cause (x : Cause) (s : State) : (raiseFault x s).cause = x := rfl
@[simp] theorem raiseFault_w (x : Cause) (s : State) : (raiseFault x s).w = s.w := rfl
@[simp] theorem raiseFault_r (x : Cause) (s : State) : (raiseFault x s).r = s.r := rfl
@[simp] theorem raiseFault_host (x : Cause) (s : State) : (raiseFault x s).host = s.host := rfl
@[simp] theorem raiseFault_resets (x : Cause) (s : State) : (raiseFault x s).resets = s.resets := rfl

/-! ## writeR -/

@[simp] theorem writeR_st (v : Byte) (s : State) : (writeR v s).st = s.st := rfl
@[simp] theorem writeR_var (v : Byte) (s : State) : (writeR v s).var = s.var := rfl
@[simp] theorem writeR_h (v : Byte) (s : State) : (writeR v s).h = s.h := rfl
@[simp] theorem writeR_b (v : Byte) (s : State) : (writeR v s).b = s.b := rfl
@[simp] theorem writeR_blen (v : Byte) (s : State) : (writeR v s).blen = s.blen := rfl
@[simp] theorem writeR_l (v : Byte) (s : State) : (writeR v s).l = s.l := rfl
@[simp] theorem writeR_digest (v : Byte) (s : State) : (writeR v s).digest = s.digest := rfl
@[simp] theorem writeR_cause (v : Byte) (s : State) : (writeR v s).cause = s.cause := rfl
@[simp] theorem writeR_w (v : Byte) (s : State) : (writeR v s).w = s.w := rfl
@[simp] theorem writeR_r (v : Byte) (s : State) : (writeR v s).r = v := rfl
@[simp] theorem writeR_host (v : Byte) (s : State) : (writeR v s).host = s.host := rfl
@[simp] theorem writeR_resets (v : Byte) (s : State) : (writeR v s).resets = s.resets := rfl

/-! ## applyToW -/

@[simp] theorem applyToW_st (g : Geom) (f : Bytes → Bytes) (s : State) : (applyToW g f s).st = s.st := by unfold applyToW; rfl
@[simp] theorem applyToW_var (g : Geom) (f : Bytes → Bytes) (s : State) : (applyToW g f s).var = s.var := by unfold applyToW; rfl
@[simp] theorem applyToW_h (g : Geom) (f : Bytes → Bytes) (s : State) : (applyToW g f s).h = s.h := by unfold applyToW; rfl
@[simp] theorem applyToW_b (g : Geom) (f : Bytes → Bytes) (s : State) : (applyToW g f s).b = s.b := by unfold applyToW; rfl
@[simp] theorem applyToW_blen (g : Geom) (f : Bytes → Bytes) (s : State) : (applyToW g f s).blen = s.blen := by unfold applyToW; rfl
@[simp] theorem applyToW_l (g : Geom) (f : Bytes → Bytes) (s : State) : (applyToW g f s).l = s.l := by unfold applyToW; rfl
@[simp] theorem applyToW_digest (g : Geom) (f : Bytes → Bytes) (s : State) : (applyToW g f s).digest = s.digest := by unfold applyToW; rfl
@[simp] theorem applyToW_cause (g : Geom) (f : Bytes → Bytes) (s : State) : (applyToW g f s).cause = s.cause := by unfold applyToW; rfl
@[simp] theorem applyToW_w (g : Geom) (f : Bytes → Bytes) (s : State) : (applyToW g f s).w = writeFirst s.w (f (firstBytes s.w (blockBytes g))) := by unfold applyToW; rfl
@[simp] theorem applyToW_r (g : Geom) (f : Bytes → Bytes) (s : State) : (applyToW g f s).r = s.r := by unfold applyToW; rfl
@[simp] theorem applyToW_host (g : Geom) (f : Bytes → Bytes) (s : State) : (applyToW g f s).host = s.host := by unfold applyToW; rfl
@[simp] theorem applyToW_resets (g : Geom) (f : Bytes → Bytes) (s : State) : (applyToW g f s).resets = s.resets := by unfold applyToW; rfl

/-! ## startHasher -/

@[simp] theorem startHasher_st (v : Variant) (s : State) : (startHasher v s).st = .accepting := rfl
@[simp] theorem startHasher_var (v : Variant) (s : State) : (startHasher v s).var = v := rfl
@[simp] theorem startHasher_h (v : Variant) (s : State) : (startHasher v s).h = writeFirst s.h (ivBytes (variantGeom v)) := rfl
@[simp] theorem startHasher_b (v : Variant) (s : State) : (startHasher v s).b = s.b := rfl
@[simp] theorem startHasher_blen (v : Variant) (s : State) : (startHasher v s).blen = 0 := rfl
@[simp] theorem startHasher_l (v : Variant) (s : State) : (startHasher v s).l = 0 := rfl
@[simp] theorem startHasher_digest (v : Variant) (s : State) : (startHasher v s).digest = s.digest := rfl
@[simp] theorem startHasher_cause (v : Variant) (s : State) : (startHasher v s).cause = s.cause := rfl
@[simp] theorem startHasher_w (v : Variant) (s : State) : (startHasher v s).w = s.w := rfl
@[simp] theorem startHasher_r (v : Variant) (s : State) : (startHasher v s).r = s.r := rfl
@[simp] theorem startHasher_host (v : Variant) (s : State) : (startHasher v s).host = s.host := rfl
@[simp] theorem startHasher_resets (v : Variant) (s : State) : (startHasher v s).resets = s.resets := rfl

/-! ## hardwareReset -/

@[simp] theorem hardwareReset_st (s : State) : (hardwareReset s).st = .idle := rfl
@[simp] theorem hardwareReset_var (s : State) : (hardwareReset s).var = .k48 := rfl
@[simp] theorem hardwareReset_h (s : State) : (hardwareReset s).h = resetArray (s.resets + 1) .h 128 := rfl
@[simp] theorem hardwareReset_b (s : State) : (hardwareReset s).b = resetArray (s.resets + 1) .b 128 := rfl
@[simp] theorem hardwareReset_blen (s : State) : (hardwareReset s).blen = 0 := rfl
@[simp] theorem hardwareReset_l (s : State) : (hardwareReset s).l = 0 := rfl
@[simp] theorem hardwareReset_digest (s : State) : (hardwareReset s).digest = resetArray (s.resets + 1) .digest 64 := rfl
@[simp] theorem hardwareReset_cause (s : State) : (hardwareReset s).cause = .none := rfl
@[simp] theorem hardwareReset_w (s : State) : (hardwareReset s).w = resetArray (s.resets + 1) .w 128 := rfl
@[simp] theorem hardwareReset_r (s : State) : (hardwareReset s).r = 0 := rfl
@[simp] theorem hardwareReset_host (s : State) : (hardwareReset s).host = s.host := rfl
@[simp] theorem hardwareReset_resets (s : State) : (hardwareReset s).resets = s.resets + 1 := rfl

/-! ## finalize -/

@[simp] theorem finalize_st (s : State) : (finalize s).st = .finalized := rfl
@[simp] theorem finalize_var (s : State) : (finalize s).var = s.var := rfl
@[simp] theorem finalize_b (s : State) : (finalize s).b = s.b := rfl
@[simp] theorem finalize_blen (s : State) : (finalize s).blen = s.blen := rfl
@[simp] theorem finalize_l (s : State) : (finalize s).l = s.l := rfl
@[simp] theorem finalize_cause (s : State) : (finalize s).cause = s.cause := rfl
@[simp] theorem finalize_w (s : State) : (finalize s).w = s.w := rfl
@[simp] theorem finalize_r (s : State) : (finalize s).r = s.r := rfl
@[simp] theorem finalize_host (s : State) : (finalize s).host = s.host := rfl
@[simp] theorem finalize_resets (s : State) : (finalize s).resets = s.resets := rfl

/-! ## withFetchWord -/

@[simp] theorem withFetchWord_st (n k : Nat) (s : State) : (s.withFetchWord n k).st = s.st := rfl
@[simp] theorem withFetchWord_var (n k : Nat) (s : State) : (s.withFetchWord n k).var = s.var := rfl
@[simp] theorem withFetchWord_h (n k : Nat) (s : State) : (s.withFetchWord n k).h = s.h := rfl
@[simp] theorem withFetchWord_b (n k : Nat) (s : State) : (s.withFetchWord n k).b = s.b := rfl
@[simp] theorem withFetchWord_blen (n k : Nat) (s : State) : (s.withFetchWord n k).blen = s.blen := rfl
@[simp] theorem withFetchWord_l (n k : Nat) (s : State) : (s.withFetchWord n k).l = s.l := rfl
@[simp] theorem withFetchWord_digest (n k : Nat) (s : State) : (s.withFetchWord n k).digest = s.digest := rfl
@[simp] theorem withFetchWord_cause (n k : Nat) (s : State) : (s.withFetchWord n k).cause = s.cause := rfl
@[simp] theorem withFetchWord_w (n k : Nat) (s : State) : (s.withFetchWord n k).w = s.w := rfl
@[simp] theorem withFetchWord_r (n k : Nat) (s : State) : (s.withFetchWord n k).r = s.r := rfl
@[simp] theorem withFetchWord_host (n k : Nat) (s : State) : (s.withFetchWord n k).host = .command (tableWord n k) :: s.host := rfl
@[simp] theorem withFetchWord_resets (n k : Nat) (s : State) : (s.withFetchWord n k).resets = s.resets := rfl

/-! ## The state after reset -/

@[simp] theorem afterReset_st (n : Nat) (hs : List HostInput) : (State.afterReset n hs).st = .idle := rfl
@[simp] theorem afterReset_var (n : Nat) (hs : List HostInput) : (State.afterReset n hs).var = .k48 := rfl
@[simp] theorem afterReset_h (n : Nat) (hs : List HostInput) : (State.afterReset n hs).h = resetArray n .h 128 := rfl
@[simp] theorem afterReset_b (n : Nat) (hs : List HostInput) : (State.afterReset n hs).b = resetArray n .b 128 := rfl
@[simp] theorem afterReset_blen (n : Nat) (hs : List HostInput) : (State.afterReset n hs).blen = 0 := rfl
@[simp] theorem afterReset_l (n : Nat) (hs : List HostInput) : (State.afterReset n hs).l = 0 := rfl
@[simp] theorem afterReset_digest (n : Nat) (hs : List HostInput) : (State.afterReset n hs).digest = resetArray n .digest 64 := rfl
@[simp] theorem afterReset_cause (n : Nat) (hs : List HostInput) : (State.afterReset n hs).cause = .none := rfl
@[simp] theorem afterReset_w (n : Nat) (hs : List HostInput) : (State.afterReset n hs).w = resetArray n .w 128 := rfl
@[simp] theorem afterReset_r (n : Nat) (hs : List HostInput) : (State.afterReset n hs).r = 0 := rfl
@[simp] theorem afterReset_host (n : Nat) (hs : List HostInput) : (State.afterReset n hs).host = hs := rfl
@[simp] theorem afterReset_resets (n : Nat) (hs : List HostInput) : (State.afterReset n hs).resets = n := rfl

/-! ## absorbByte: what it writes in either case, and what it keeps -/

@[simp] theorem absorbByte_st (x : Byte) (s : State) : (absorbByte x s).st = s.st := by
  unfold absorbByte; dsimp only; split <;> rfl
@[simp] theorem absorbByte_var (x : Byte) (s : State) : (absorbByte x s).var = s.var := by
  unfold absorbByte; dsimp only; split <;> rfl
@[simp] theorem absorbByte_digest (x : Byte) (s : State) : (absorbByte x s).digest = s.digest := by
  unfold absorbByte; dsimp only; split <;> rfl
@[simp] theorem absorbByte_cause (x : Byte) (s : State) : (absorbByte x s).cause = s.cause := by
  unfold absorbByte; dsimp only; split <;> rfl
@[simp] theorem absorbByte_w (x : Byte) (s : State) : (absorbByte x s).w = s.w := by
  unfold absorbByte; dsimp only; split <;> rfl
@[simp] theorem absorbByte_r (x : Byte) (s : State) : (absorbByte x s).r = s.r := by
  unfold absorbByte; dsimp only; split <;> rfl
@[simp] theorem absorbByte_host (x : Byte) (s : State) : (absorbByte x s).host = s.host := by
  unfold absorbByte; dsimp only; split <;> rfl
@[simp] theorem absorbByte_resets (x : Byte) (s : State) : (absorbByte x s).resets = s.resets := by
  unfold absorbByte; dsimp only; split <;> rfl
@[simp] theorem absorbByte_b (x : Byte) (s : State) :
    (absorbByte x s).b = s.b.set s.blen.toNat x (by omega) := by
  unfold absorbByte; dsimp only; split <;> rfl
@[simp] theorem absorbByte_l (x : Byte) (s : State) : (absorbByte x s).l = s.l + 8 := by
  unfold absorbByte; dsimp only; split <;> rfl

end Sys2Proof.Machine
end

