-- ==== Sys2Proof/Laws/Ops.lean ====
section
/-! SUPPORT. What each shared operation can answer, said once; and that a meaning always answers a next state. -/

namespace Sys2Proof.Machine

theorem unlessFault_eq_next {s n t : State} :
    unlessFault s n = .next t ↔ (s.st = .fault ∧ t = s) ∨ (s.st ≠ .fault ∧ t = n) := by
  cases h : s.st <;> simp [unlessFault, h, eq_comm]

theorem unlessFault_of_running {s : State} (n : State) (h : s.st ≠ .fault) : unlessFault s n = .next n := by
  cases hs : s.st <;> simp_all [unlessFault]

theorem unlessFault_of_fault {s : State} (n : State) (h : s.st = .fault) : unlessFault s n = .next s := by
  simp [unlessFault, h]

theorem requireHasher_eq_next {s n t : State} :
    requireHasher s n = .next t ↔
      (s.st = .fault ∧ t = s) ∨ (s.st = .idle ∧ t = raiseFault .usageIdle s) ∨
        ((s.st = .accepting ∨ s.st = .finalized) ∧ t = n) := by
  cases h : s.st <;> simp [requireHasher, h, eq_comm]

theorem requireAccepting_eq_next {s n t : State} :
    requireAccepting s n = .next t ↔
      (s.st = .fault ∧ t = s) ∨ (s.st = .idle ∧ t = raiseFault .usageIdle s) ∨
        (s.st = .finalized ∧ t = raiseFault .usageFinalized s) ∨ (s.st = .accepting ∧ t = n) := by
  cases h : s.st <;> simp [requireAccepting, h, eq_comm]

theorem requireFinalized_eq_next {s n t : State} :
    requireFinalized s n = .next t ↔
      (s.st = .fault ∧ t = s) ∨ ((s.st = .idle ∨ s.st = .accepting) ∧ t = raiseFault .noDigest s) ∨
        (s.st = .finalized ∧ t = n) := by
  cases h : s.st <;> simp [requireFinalized, h, eq_comm]

/-- Everything an accepted word can do (R167). -/
theorem acceptWord_cases (w : Word) (s : State) :
    (s.st = .fault ∧ acceptWord w s = .next s) ∨
    (s.st ≠ .fault ∧ (∃ why, decode w = .illegal why) ∧ acceptWord w s = .next (raiseFault .illegal s)) ∨
    (s.st ≠ .fault ∧ ∃ i, decode w = .command i ∧ acceptWord w s = exec i s) := by
  cases hs : s.st <;> cases hd : decode w <;> simp [acceptWord, hs, hd]

/-- Everything a step can do (R46, R180, R197). -/
theorem step_cases (s : State) :
    (s.host = [] ∧ step s = .next s) ∨
    (∃ x rest, s.host = x :: rest ∧
      ((∃ w, x = .command w ∧ step s = acceptWord w { s with host := rest }) ∨
       ((x = .idle ∨ ∃ w, x = .notReady w) ∧ step s = .next { s with host := rest }) ∨
       ((x = .reset ∨ ∃ w, x = .resetDuring w) ∧
          step s = .next (State.afterReset (s.resets + 1) rest)))) := by
  cases h : s.host with
  | nil => exact .inl ⟨rfl, by simp [step, hostStep, h]⟩
  | cons x rest =>
    refine .inr ⟨x, rest, rfl, ?_⟩
    cases x <;> simp [step, hostStep, h, takeInput, hardwareReset]

end Sys2Proof.Machine
end

