-- ==== Sys2Proof/Laws/Exec.lean ====
section
/-! SUPPORT. Everything a command can do, said once: nothing in FAULT, else a fault entry or the command's own
effect. Later proofs split on these lemmas instead of unfolding the meanings. -/

namespace Sys2Proof.Machine

/-- The state a command's own effect leads to, when it neither is ignored nor faults. -/
def commandEffect (i : Instr) (s : State) : State :=
  match i with
  | .nop => s
  | .init v => startHasher v s
  | .reset => startHasher s.var s
  | .absorb b => absorbByte b s
  | .final => finalize s
  | .dget i => writeR (s.digest.toList.getD i 0) s
  | .wput i b => if h : i < 128 then { s with w := s.w.set i b h } else s
  | .wget i => if h : i < 128 then writeR (s.w[i]'h) s else s
  | .addcx g nu => applyToW g (fun m => addConstX g m nu) s
  | .addca g nu => applyToW g (fun m => addConstA g m nu) s
  | .subb g => applyToW g (subBytes g) s
  | .shift g => applyToW g (shiftBytes g) s
  | .mixc g => applyToW g (mixColumns g) s
  | .rndx g nu => applyToW g (fun m => roundX g m nu) s
  | .rnda g nu => applyToW g (fun m => roundA g m nu) s
  | .permx g => applyToW g (permX g) s
  | .perma g => applyToW g (permA g) s
  | .gfmul a b => writeR (gfmul a b) s
  | .gfinv a => writeR (gfinv a) s
  | .sbox k a => writeR (sboxEntry k a) s

theorem exec_of_fault (i : Instr) {s : State} (h : s.st = .fault) : exec i s = .next s := by
  cases i <;> simp [exec, execNop, execInit, execReset, execAbsorb, execFinal, execDget, execWput, execWget,
    execAddcx, execAddca, execSubb, execShift, execMixc, execRndx, execRnda, execPermx, execPerma, execGfmul,
    execGfinv, execSbox, unlessFault, requireHasher, requireAccepting, requireFinalized, h]

theorem exec_of_cause {i : Instr} {s : State} {x : Cause} (h : faultCause s.st s.var i = some x) :
    exec i s = .next (raiseFault x s) := by
  cases i <;> cases hs : s.st <;> simp [faultCause, hs] at h <;>
    simp_all [exec, execReset, execAbsorb, execFinal, execDget, execWput, execWget, unlessFault, requireHasher,
      requireAccepting, requireFinalized, Nat.not_lt.2]

theorem exec_of_effect {i : Instr} {s : State} (hs : s.st ≠ .fault) (h : faultCause s.st s.var i = none) :
    exec i s = .next (commandEffect i s) := by
  cases i <;> cases hst : s.st <;> simp_all [faultCause, exec, execNop, execInit, execReset, execAbsorb, execFinal,
    execDget, execWput, execWget, execAddcx, execAddca, execSubb, execShift, execMixc, execRndx, execRnda, execPermx,
    execPerma, execGfmul, execGfinv, execSbox, unlessFault, requireHasher, requireAccepting, requireFinalized,
    commandEffect]

/-- Everything a command can do. -/
theorem exec_cases {i : Instr} {s t : State} (h : exec i s = .next t) :
    (s.st = .fault ∧ t = s) ∨
    (s.st ≠ .fault ∧ ∃ x, faultCause s.st s.var i = some x ∧ t = raiseFault x s) ∨
    (s.st ≠ .fault ∧ faultCause s.st s.var i = none ∧ t = commandEffect i s) := by
  by_cases hs : s.st = .fault
  · rw [exec_of_fault i hs] at h; cases h; exact .inl ⟨hs, rfl⟩
  · cases hc : faultCause s.st s.var i with
    | some x => rw [exec_of_cause hc] at h; cases h; exact .inr (.inl ⟨hs, x, rfl, rfl⟩)
    | none => rw [exec_of_effect hs hc] at h; cases h; exact .inr (.inr ⟨hs, rfl, rfl⟩)

/-- Running commands one after another in two parts is running them all (R40). -/
theorem execAll_append (is js : List Instr) (s : State) :
    execAll (is ++ js) s =
      match execAll is s with
      | .next t => execAll js t
      | .fault r => .fault r
      | .refused r => .refused r := by
  induction is generalizing s with
  | nil => rfl
  | cons i is ih =>
    simp only [List.cons_append, execAll]
    cases exec i s with
    | next t => exact ih t
    | fault r => rfl
    | refused r => rfl

end Sys2Proof.Machine
end

