-- ==== Sys2Proof/Laws/PerInstr.lean ====
section
/-! SUPPORT. Per instruction: the word of a command stands in the row of the command set that has its mnemonic
(spec/30_encoding.md R49, R52: every reserved bit of the word is 0). -/

namespace Sys2Proof

/-- A bytewise mask acts on each byte of C32 on its own. -/
theorem packC32_and (a b c d a' b' c' d' : Byte) :
    packC32 a b c d &&& packC32 a' b' c' d' = packC32 (a &&& a') (b &&& b') (c &&& c') (d &&& d') := by
  apply BitVec.eq_of_getLsbD_eq
  intro n _
  simp only [packC32, BitVec.getLsbD_and, BitVec.getLsbD_append]
  split <;> [skip; split <;> [skip; split]] <;> rfl

theorem geomByte_and (g : Geom) : geomByte g &&& 0xFE = 0 := by cases g <;> rfl

theorem codeOfVariant_and (v : Variant) : (codeOfVariant v).setWidth 8 &&& (0xFC : Byte) = 0 := by cases v <;> rfl

theorem tableCode_and (k : Fin 4) : BitVec.ofNat 8 k.val &&& (0xFC : Byte) = 0 := by revert k; decide

namespace Laws.EncodesInRow

/-- The word of `i` matches the row of the command set with the mnemonic of `i`. -/
def Statement (i : Instr) : Prop :=
  ∃ r ∈ opcodeTable, r.mnemonic = i.mnemonic ∧ encode i &&& r.mask = r.value

/-- The row is given by its place in the table and its mask byte by byte. -/
theorem of_row {i : Instr} (n : Nat) (h : n < opcodeTable.length) {a b c d : Byte} (a' b' c' d' : Byte)
    {va vb vc vd : Byte} (hm : (opcodeTable[n]'h).mnemonic = i.mnemonic) (he : encode i = packC32 a b c d)
    (hk : (opcodeTable[n]'h).mask = packC32 a' b' c' d')
    (hv : (opcodeTable[n]'h).value = packC32 va vb vc vd)
    (ha : a &&& a' = va) (hb : b &&& b' = vb) (hc : c &&& c' = vc) (hd : d &&& d' = vd) : Statement i :=
  ⟨_, List.getElem_mem h, hm, by rw [he, hk, packC32_and, ha, hb, hc, hd, hv]⟩

theorem nop : Statement .nop :=
  of_row 0 (by decide) 0xFF 0xFF 0xFF 0xFF (va := 0x00) (vb := 0) (vc := 0) (vd := 0) rfl rfl rfl rfl
    rfl rfl rfl rfl

theorem init (v : Variant) : Statement (.init v) :=
  of_row 1 (by decide) 0xFF 0xFF 0xFF 0xFC (va := 0x01) (vb := 0) (vc := 0) (vd := 0) rfl rfl rfl rfl
    rfl rfl rfl (codeOfVariant_and _)

theorem reset : Statement .reset :=
  of_row 2 (by decide) 0xFF 0xFF 0xFF 0xFF (va := 0x02) (vb := 0) (vc := 0) (vd := 0) rfl rfl rfl rfl
    rfl rfl rfl rfl

theorem absorb (b : Byte) : Statement (.absorb b) :=
  of_row 3 (by decide) 0xFF 0xFF 0xFF 0 (va := 0x03) (vb := 0) (vc := 0) (vd := 0) rfl rfl rfl rfl
    rfl rfl rfl BitVec.and_zero

theorem final : Statement .final :=
  of_row 4 (by decide) 0xFF 0xFF 0xFF 0xFF (va := 0x04) (vb := 0) (vc := 0) (vd := 0) rfl rfl rfl rfl
    rfl rfl rfl rfl

theorem dget (i : Nat) : Statement (.dget i) :=
  of_row 5 (by decide) 0xFF 0xFF 0xFF 0 (va := 0x05) (vb := 0) (vc := 0) (vd := 0) rfl rfl rfl rfl
    rfl rfl rfl BitVec.and_zero

theorem wput (i : Nat) (b : Byte) : Statement (.wput i b) :=
  of_row 6 (by decide) 0xFF 0xFF 0 0 (va := 0x10) (vb := 0) (vc := 0) (vd := 0) rfl rfl rfl rfl
    rfl rfl BitVec.and_zero BitVec.and_zero

theorem wget (i : Nat) : Statement (.wget i) :=
  of_row 7 (by decide) 0xFF 0xFF 0 0xFF (va := 0x11) (vb := 0) (vc := 0) (vd := 0) rfl rfl rfl rfl
    rfl rfl BitVec.and_zero rfl

theorem addcx (g : Geom) (nu : Byte) : Statement (.addcx g nu) :=
  of_row 8 (by decide) 0xFF 0xFE 0xFF 0 (va := 0x12) (vb := 0) (vc := 0) (vd := 0) rfl rfl rfl rfl
    rfl (geomByte_and _) rfl BitVec.and_zero

theorem addca (g : Geom) (nu : Byte) : Statement (.addca g nu) :=
  of_row 9 (by decide) 0xFF 0xFE 0xFF 0 (va := 0x13) (vb := 0) (vc := 0) (vd := 0) rfl rfl rfl rfl
    rfl (geomByte_and _) rfl BitVec.and_zero

theorem subb (g : Geom) : Statement (.subb g) :=
  of_row 10 (by decide) 0xFF 0xFE 0xFF 0xFF (va := 0x14) (vb := 0) (vc := 0) (vd := 0) rfl rfl rfl rfl
    rfl (geomByte_and _) rfl rfl

theorem shift (g : Geom) : Statement (.shift g) :=
  of_row 11 (by decide) 0xFF 0xFE 0xFF 0xFF (va := 0x15) (vb := 0) (vc := 0) (vd := 0) rfl rfl rfl rfl
    rfl (geomByte_and _) rfl rfl

theorem mixc (g : Geom) : Statement (.mixc g) :=
  of_row 12 (by decide) 0xFF 0xFE 0xFF 0xFF (va := 0x16) (vb := 0) (vc := 0) (vd := 0) rfl rfl rfl rfl
    rfl (geomByte_and _) rfl rfl

theorem rndx (g : Geom) (nu : Byte) : Statement (.rndx g nu) :=
  of_row 13 (by decide) 0xFF 0xFE 0xFF 0 (va := 0x17) (vb := 0) (vc := 0) (vd := 0) rfl rfl rfl rfl
    rfl (geomByte_and _) rfl BitVec.and_zero

theorem rnda (g : Geom) (nu : Byte) : Statement (.rnda g nu) :=
  of_row 14 (by decide) 0xFF 0xFE 0xFF 0 (va := 0x18) (vb := 0) (vc := 0) (vd := 0) rfl rfl rfl rfl
    rfl (geomByte_and _) rfl BitVec.and_zero

theorem permx (g : Geom) : Statement (.permx g) :=
  of_row 15 (by decide) 0xFF 0xFE 0xFF 0xFF (va := 0x19) (vb := 0) (vc := 0) (vd := 0) rfl rfl rfl rfl
    rfl (geomByte_and _) rfl rfl

theorem perma (g : Geom) : Statement (.perma g) :=
  of_row 16 (by decide) 0xFF 0xFE 0xFF 0xFF (va := 0x1A) (vb := 0) (vc := 0) (vd := 0) rfl rfl rfl rfl
    rfl (geomByte_and _) rfl rfl

theorem gfmul (a b : Byte) : Statement (.gfmul a b) :=
  of_row 17 (by decide) 0xFF 0xFF 0 0 (va := 0x20) (vb := 0) (vc := 0) (vd := 0) rfl rfl rfl rfl
    rfl rfl BitVec.and_zero BitVec.and_zero

theorem gfinv (a : Byte) : Statement (.gfinv a) :=
  of_row 18 (by decide) 0xFF 0xFF 0xFF 0 (va := 0x21) (vb := 0) (vc := 0) (vd := 0) rfl rfl rfl rfl
    rfl rfl rfl BitVec.and_zero

theorem sbox (k : Fin 4) (a : Byte) : Statement (.sbox k a) :=
  of_row 19 (by decide) 0xFF 0xFF 0xFC 0 (va := 0x22) (vb := 0) (vc := 0) (vd := 0) rfl rfl rfl rfl
    rfl rfl (tableCode_and _) BitVec.and_zero

end Laws.EncodesInRow

end Sys2Proof
end

