-- ==== Sys2Proof/Laws/Registers.lean ====
section
/-! SUPPORT. What each shared operation leaves in every byte of a register array, said once: reading a byte after
`writeFirst`, after `applyToW`, after `startHasher` and after `absorbByte` in either of its cases. -/

namespace Sys2Proof.Machine

/-! ## One byte of an array -/

theorem byteAt_of_lt {k : Nat} (v : Vector Byte k) {n : Nat} (h : n < k) : byteAt v n = v[n] := by
  simp [byteAt, List.getD, h]

theorem byteAt_set_self {k : Nat} (v : Vector Byte k) (x : Byte) {n : Nat} (h : n < k) :
    byteAt (v.set n x h) n = x := by
  rw [byteAt_of_lt _ h]; simp

theorem byteAt_set_ne {k : Nat} (v : Vector Byte k) (x : Byte) {m n : Nat} (hm : m < k) (hn : n < k) (hne : n ≠ m) :
    byteAt (v.set m x hm) n = byteAt v n := by
  rw [byteAt_of_lt _ hn, byteAt_of_lt _ hn]; simp [Ne.symm hne]

theorem byteAt_writeFirst {k : Nat} (v : Vector Byte k) (x : Bytes) {n : Nat} (h : n < k) :
    byteAt (writeFirst v x) n = x.getD n (byteAt v n) := by
  rw [byteAt_of_lt _ h, byteAt_of_lt _ h, getElem_writeFirst]

theorem byteAt_writeFirst_of_ge {k : Nat} (v : Vector Byte k) (x : Bytes) {n : Nat} (h : n < k)
    (hx : x.length ≤ n) : byteAt (writeFirst v x) n = byteAt v n := by
  rw [byteAt_writeFirst _ _ h, List.getD_eq_default _ _ hx]

theorem firstBytes_writeFirst_of_length {k n : Nat} (v : Vector Byte k) (x : Bytes) (h : x.length = n)
    (hn : n ≤ k) : firstBytes (writeFirst v x) n = x := by
  subst h; exact firstBytes_writeFirst _ _ hn

theorem variantBlock_le (v : Variant) : variantBlock v ≤ 128 := blockBytes_le _

/-! ## The working matrix -/

/-- The matrix an operation reads from W, cell by cell (R31). -/
theorem cell_firstBytes {g : Geom} (w : Vector Byte 128) {i j : Nat} (hi : i < 8) (hj : j < cols g) :
    cell (firstBytes w (blockBytes g)) i j = byteAt w (8 * j + i) := by
  have hn : 8 * j + i < blockBytes g := by unfold blockBytes; omega
  have := blockBytes_le g
  rw [byteAt_of_lt _ (by omega)]
  simp [cell, firstBytes, List.getD, hn]
  rw [Vector.getElem?_eq_getElem (by omega)]; simp

/-- Everything `applyToW` does for an operation given by the entries of its result (R93). -/
theorem workingResult_applyToW {g : Geom} {s : State} {f : Bytes → Bytes} {e e' : Nat → Nat → Byte}
    (hf : f (firstBytes s.w (blockBytes g)) = matrix g e)
    (h : ∀ i j, i < 8 → j < cols g → e i j = e' i j) : WorkingResult g s (applyToW g f s) e' := by
  have hg := blockBytes_le g
  refine ⟨by unfold applyToW; rfl, fun i j hi hj => ?_, fun n h1 h2 => ?_⟩
  · have hn : 8 * j + i < blockBytes g := by unfold blockBytes; omega
    rw [applyToW_w, hf, byteAt_writeFirst _ _ (by omega), getD_matrix _ _ hn,
      show (8 * j + i) % 8 = i by omega, show (8 * j + i) / 8 = j by omega, h i j hi hj]
  · rw [applyToW_w]
    exact byteAt_writeFirst_of_ge _ _ h2 (by rw [hf]; simpa using h1)

/-- Two operations on W one after the other are their composition. -/
theorem applyToW_applyToW (g : Geom) (f f' : Bytes → Bytes) (s : State)
    (hf : (f (firstBytes s.w (blockBytes g))).length = blockBytes g)
    (hf' : ∀ m, m.length = blockBytes g → (f' m).length = blockBytes g) :
    applyToW g f' (applyToW g f s) = applyToW g (fun m => f' (f m)) s := by
  have h1 : firstBytes (writeFirst s.w (f (firstBytes s.w (blockBytes g)))) (blockBytes g) =
      f (firstBytes s.w (blockBytes g)) := firstBytes_writeFirst_of_length _ _ hf (blockBytes_le g)
  simp only [applyToW, h1]
  rw [writeFirst_writeFirst _ _ _ (by rw [hf, hf' _ hf])]

/-! ## The buffer -/

/-- ABSORB of a byte that does not complete a block (R123). -/
theorem absorbByte_of_room {x : Byte} {s : State} (h : s.blen.toNat + 1 ≠ variantBlock s.var) :
    absorbByte x s = { s with b := (absorbByte x s).b, blen := s.blen + 1, l := s.l + 8 } := by
  rw [absorbByte_b]
  unfold absorbByte
  exact if_neg h

/-- The bytes in the buffer after ABSORB are the old ones and the new byte. -/
theorem firstBytes_absorbByte (x : Byte) (s : State) :
    firstBytes (absorbByte x s).b (s.blen.toNat + 1) = firstBytes s.b s.blen.toNat ++ [x] := by
  rw [absorbByte_b]
  apply List.ext_getElem
  · simp; omega
  · intro i h1 h3
    simp only [length_firstBytes] at h1
    simp only [firstBytes, Vector.toList_set, List.getElem_take, List.getElem_set, Vector.getElem_toList,
      List.getElem_append, List.length_take, Vector.length_toList, List.getElem_singleton]
    split
    · rw [dif_neg (by omega)]
    · rw [dif_pos (by omega)]

/-- ABSORB of the byte that completes a block (R123). -/
theorem absorbByte_of_full {x : Byte} {s : State} (h : s.blen.toNat + 1 = variantBlock s.var) :
    absorbByte x s =
      { s with
        b := (absorbByte x s).b
        blen := 0
        l := s.l + 8
        h := writeFirst s.h
          (compress (variantGeom s.var) (firstBytes s.h (variantBlock s.var)) (firstBytes s.b s.blen.toNat ++ [x])) } := by
  rw [← firstBytes_absorbByte, h, absorbByte_b]
  unfold absorbByte
  exact if_pos h

/-- The chain value keeps its length through any number of blocks. -/
theorem length_chainBlocks (g : Geom) (h p : Bytes) (n : Nat) (hh : h.length = blockBytes g) :
    (chainBlocks g h p n).length = blockBytes g := by
  induction n with
  | zero => simpa [chainBlocks] using hh
  | succ n ih =>
    unfold chainBlocks at ih ⊢
    rw [List.range_succ, List.foldl_append]
    exact length_compress _ _ _ ih

end Sys2Proof.Machine
end

