-- ==== Sys2Proof/Tests/Slice0.lean ====
section
/-! SUPPORT. Tests of single steps against the spec's worked values, and a witness for the hypotheses of every
statement that has some. -/

namespace Sys2Proof.Machine

/-! ## Well-formedness: each check refuses an ill-formed term and accepts the largest index -/

theorem test_illformed_dget : (Instr.dget 256).WellFormed = false := by decide
theorem test_illformed_wput : (Instr.wput 256 0).WellFormed = false := by decide
theorem test_illformed_wget : (Instr.wget 256).WellFormed = false := by decide
theorem test_wellformed_indices :
    (Instr.dget 255).WellFormed = true ∧ (Instr.wput 255 0).WellFormed = true ∧
    (Instr.wget 255).WellFormed = true := by decide

/-! ## Decoding: words written out from the encodings of the spec (95_test_vectors.md sections 3.1 to 3.10, R49, R54),
and the same words from the encoder -/

theorem test_decode_nop : decode 0x00000000 = .command .nop ∧ encode .nop = 0x00000000 := by decide
theorem test_decode_init : decode 0x01000003 = .command (.init .k512) ∧ encode (.init .k512) = 0x01000003 := by decide
theorem test_decode_init_k48 : decode 0x01000000 = .command (.init .k48) ∧ encode (.init .k48) = 0x01000000 := by decide
theorem test_decode_init_k384 : decode 0x01000002 = .command (.init .k384) ∧ encode (.init .k384) = 0x01000002 := by decide
theorem test_decode_reset : decode 0x02000000 = .command .reset ∧ encode .reset = 0x02000000 := by decide
theorem test_decode_absorb : decode 0x030000FF = .command (.absorb 0xFF) ∧ encode (.absorb 0xFF) = 0x030000FF := by decide
theorem test_decode_final : decode 0x04000000 = .command .final ∧ encode .final = 0x04000000 := by decide
theorem test_decode_dget : decode 0x0500003F = .command (.dget 63) ∧ encode (.dget 63) = 0x0500003F := by decide
theorem test_decode_wput : decode 0x10007FFF = .command (.wput 127 0xFF) ∧ encode (.wput 127 0xFF) = 0x10007FFF := by decide
theorem test_decode_wput_index_255 : decode 0x1000FF00 = .command (.wput 255 0) ∧ encode (.wput 255 0) = 0x1000FF00 := by decide
theorem test_decode_wget : decode 0x11007F00 = .command (.wget 127) ∧ encode (.wget 127) = 0x11007F00 := by decide
theorem test_decode_addcx : decode 0x1201000D = .command (.addcx .g16 13) ∧ encode (.addcx .g16 13) = 0x1201000D := by decide
theorem test_decode_addca : decode 0x13000009 = .command (.addca .g8 9) ∧ encode (.addca .g8 9) = 0x13000009 := by decide
theorem test_decode_subb : decode 0x14010000 = .command (.subb .g16) ∧ encode (.subb .g16) = 0x14010000 := by decide
theorem test_decode_shift : decode 0x15010000 = .command (.shift .g16) ∧ encode (.shift .g16) = 0x15010000 := by decide
theorem test_decode_mixc : decode 0x16000000 = .command (.mixc .g8) ∧ encode (.mixc .g8) = 0x16000000 := by decide
theorem test_decode_rndx : decode 0x17000005 = .command (.rndx .g8 5) ∧ encode (.rndx .g8 5) = 0x17000005 := by decide
theorem test_decode_rnda : decode 0x1801000D = .command (.rnda .g16 13) ∧ encode (.rnda .g16 13) = 0x1801000D := by decide
theorem test_decode_permx : decode 0x19010000 = .command (.permx .g16) ∧ encode (.permx .g16) = 0x19010000 := by decide
theorem test_decode_perma : decode 0x1A010000 = .command (.perma .g16) ∧ encode (.perma .g16) = 0x1A010000 := by decide
theorem test_decode_gfmul : decode 0x200053CA = .command (.gfmul 0x53 0xCA) ∧ encode (.gfmul 0x53 0xCA) = 0x200053CA := by decide
theorem test_decode_gfinv : decode 0x210000FF = .command (.gfinv 0xFF) ∧ encode (.gfinv 0xFF) = 0x210000FF := by decide
theorem test_decode_sbox : decode 0x220003FF = .command (.sbox 3 0xFF) ∧ encode (.sbox 3 0xFF) = 0x220003FF := by decide

/-- 95_test_vectors.md section 3.9: words with a reserved bit set. -/
theorem test_decode_reserved_bits :
    ([0x00000001, 0x01000004, 0x02000100, 0x03000100, 0x04010000, 0x05010000, 0x10010000,
      0x11007F01, 0x12020000, 0x12000100, 0x14000001, 0x20010000, 0x21000100, 0x22000400] : List Word).all
      (fun w => decode w == .illegal .reservedBit) = true := by decide

/-- 95_test_vectors.md section 3.9, R51: undefined opcodes. -/
theorem test_decode_undefined_opcodes :
    ([0x1B000000, 0x06000000, 0x0F000000, 0x23000000, 0xFFFFFFFF] : List Word).all
      (fun w => decode w == .illegal .undefinedOpcode) = true := by decide

theorem test_decodeTableWord : decodeTableWord 32 0x220003FF = some (.sbox 3 0xFF) := by decide
theorem test_decodeTableWord_illegal : decodeTableWord 32 0x22000400 = none := by decide

/-! ## States to step from -/

/-- A state with all bytes zero. -/
def zeroState (st : HasherState) (var : Variant) (cause : Cause) : State where
  st := st
  var := var
  h := Vector.replicate 128 0
  b := Vector.replicate 128 0
  blen := 0
  l := 0
  digest := Vector.replicate 64 0
  cause := cause
  w := Vector.replicate 128 0
  r := 0
  host := []
  resets := 0

/-- IDLE, with `W[n] = n`, the start of 95_test_vectors.md section 3.4. -/
def ramp : State := { zeroState .idle .k48 .none with w := Vector.ofFn fun i => BitVec.ofNat 8 i.val }

/-- IDLE, with the given bytes as column 0 of W. -/
def columnState (bs : Bytes) : State :=
  { zeroState .idle .k48 .none with w := writeFirst (Vector.replicate 128 0) bs }

/-- ACCEPTING, with `n` bytes in the buffer. -/
def filling (var : Variant) (n : Nat) : State := { zeroState .accepting var .none with blen := BitVec.ofNat 7 n }

/-- FINALIZED, with byte `i` of DIGEST equal to `i`. -/
def digestRamp (var : Variant) : State :=
  { zeroState .finalized var .none with digest := Vector.ofFn fun i => BitVec.ofNat 8 i.val }

/-- FAULT, by misuse after FINAL. -/
def faulted : State := zeroState .fault .k256 .usageFinalized

/-- What `f` reads in the next state. -/
def reads {α : Type} (f : State → α) : Result → Option α
  | .next t => some (f t)
  | .fault _ => none
  | .refused _ => none

/-- Column `j` of W. -/
def wColumn (j : Nat) (t : State) : Bytes := (List.range 8).map fun i => byteAt t.w (8 * j + i)

/-! ## One step each -/

theorem test_nop_in_fault : exec .nop faulted = .next faulted := by rfl

/-- R78, R121. -/
theorem test_init_k384 :
    reads (fun t => (t.st, t.var, byteAt t.h 0, byteAt t.h 1, t.blen, t.l)) (exec (.init .k384) (digestRamp .k256)) =
      some (.accepting, .k384, 0x80, 0, 0, 0) := by decide
theorem test_init_k48_iv : reads (fun t => byteAt t.h 0) (exec (.init .k48) (filling .k512 5)) = some 0x40 := by
  decide

/-- 95_test_vectors.md section 3.10. -/
theorem test_reset_idle :
    reads (fun t => (t.st, t.cause)) (exec .reset (zeroState .idle .k48 .none)) = some (.fault, .usageIdle) := by
  decide
theorem test_reset_finalized :
    reads (fun t => (t.st, t.var, byteAt t.h 0)) (exec .reset (digestRamp .k256)) =
      some (.accepting, .k256, 0x40) := by decide

/-- R123: the last byte but one of a block stays in the buffer. -/
theorem test_absorb_fills :
    reads (fun t => (t.blen, t.l, byteAt t.b 62)) (exec (.absorb 0x61) (filling .k256 62)) = some (63, 8, 0x61) := by
  decide
/-- R123: the last byte of a block empties the buffer. -/
theorem test_absorb_completes_block :
    reads (fun t => (t.st, t.blen, byteAt t.b 127)) (exec (.absorb 0x61) (filling .k512 127)) =
      some (.accepting, 0, 0x61) := by decide

/-- 95_test_vectors.md section 3.10. -/
theorem test_final_after_final :
    reads (fun t => (t.st, t.cause)) (exec .final (digestRamp .k256)) = some (.fault, .usageFinalized) := by decide
/-- Program 1 of 95_test_vectors.md: FINAL leaves BLEN and VAR. -/
theorem test_final_keeps_blen :
    reads (fun t => (t.st, t.var, t.blen, t.cause)) (exec .final (filling .k48 3)) =
      some (.finalized, .k48, 3, .none) := by decide

/-- 95_test_vectors.md section 3.10: the last legal index of each variant, and the state check before the range. -/
theorem test_dget_last :
    reads State.r (exec (.dget 5) (digestRamp .k48)) = some 5 ∧
    reads State.r (exec (.dget 63) (digestRamp .k512)) = some 63 := by decide
theorem test_dget_faults :
    reads State.cause (exec (.dget 48) (digestRamp .k384)) = some .range ∧
    reads State.cause (exec (.dget 200) (filling .k256 0)) = some .noDigest := by decide

/-- 95_test_vectors.md section 3.4. -/
theorem test_wput_last : reads (fun t => byteAt t.w 127) (exec (.wput 127 0x01) ramp) = some 0x01 := by decide
theorem test_wput_range : reads State.cause (exec (.wput 128 0) ramp) = some .range := by decide
theorem test_wget_last : reads State.r (exec (.wget 127) ramp) = some 127 := by decide
theorem test_wget_range : reads State.cause (exec (.wget 255) ramp) = some .range := by decide

/-- 95_test_vectors.md section 3.4: columns 1 and 15. -/
theorem test_addcx_g8 :
    reads (wColumn 1) (exec (.addcx .g8 9) ramp) = some [0x11, 0x09, 0x0A, 0x0B, 0x0C, 0x0D, 0x0E, 0x0F] := by decide
theorem test_addcx_g16 :
    reads (wColumn 15) (exec (.addcx .g16 13) ramp) = some [0x85, 0x79, 0x7A, 0x7B, 0x7C, 0x7D, 0x7E, 0x7F] := by
  decide

/-- 95_test_vectors.md section 3.4: the carry through all eight bytes, and column 0 of 16. -/
theorem test_addca_carry :
    reads (wColumn 0) (exec (.addca .g8 3) (columnState [0x10, 0x0F, 0x0F, 0x0F, 0x0F, 0x0F, 0x0F, 0xFF])) =
      some [0x03, 0x00, 0x00, 0x00, 0x00, 0x00, 0x00, 0x73] := by decide
theorem test_addca_g16 :
    reads (wColumn 0) (exec (.addca .g16 13) ramp) = some [0xF3, 0xF1, 0xF2, 0xF3, 0xF4, 0xF5, 0xF6, 0x04] := by decide

/-- 95_test_vectors.md section 3.4. -/
theorem test_subb_g8 :
    reads (wColumn 0) (exec (.subb .g8) ramp) = some [0xA8, 0xBB, 0x9A, 0x4D, 0x6B, 0xCB, 0x45, 0x2A] := by decide
theorem test_subb_g16 :
    reads (wColumn 8) (exec (.subb .g16) ramp) = some [0xDC, 0x6B, 0xD7, 0x0E, 0x42, 0x33, 0xC3, 0x86] := by decide

/-- 95_test_vectors.md section 3.4. -/
theorem test_shift_g8 :
    reads (wColumn 0) (exec (.shift .g8) ramp) = some [0x00, 0x39, 0x32, 0x2B, 0x24, 0x1D, 0x16, 0x0F] := by decide
theorem test_shift_g16 :
    reads (wColumn 0) (exec (.shift .g16) ramp) = some [0x00, 0x79, 0x72, 0x6B, 0x64, 0x5D, 0x56, 0x2F] := by decide

/-- 95_test_vectors.md section 3.4. -/
theorem test_mixc_g8 :
    reads (wColumn 0) (exec (.mixc .g8) ramp) = some [0x38, 0x21, 0x36, 0x27, 0x1C, 0x05, 0x12, 0x03] := by decide
theorem test_mixc_reduces :
    reads (wColumn 0) (exec (.mixc .g8) (columnState [0xFF, 0, 0, 0, 0, 0, 0, 0])) =
      some [0xFF, 0xDB, 0xC7, 0x38, 0xAB, 0xFF, 0x24, 0xFF] := by decide

set_option maxRecDepth 10000 in
/-- 95_test_vectors.md section 3.5: column 0 after round 0. -/
theorem test_rndx_g8 :
    reads (wColumn 0) (exec (.rndx .g8 0) ramp) = some [0x4D, 0xA7, 0x4F, 0x33, 0xC3, 0x48, 0x5F, 0x0C] := by decide

set_option maxRecDepth 10000 in
/-- 95_test_vectors.md section 3.5: column 0 after round 0. -/
theorem test_rnda_g8 :
    reads (wColumn 0) (exec (.rnda .g8 0) ramp) = some [0x26, 0x02, 0xD1, 0xE5, 0x80, 0xD3, 0x12, 0x6B] := by decide

/-- R93: PERMX and PERMA with 8 columns leave the upper half. -/
theorem test_permx_upper_half : reads (fun t => byteAt t.w 64) (exec (.permx .g8) ramp) = some 0x40 := by decide
theorem test_perma_upper_half : reads (fun t => byteAt t.w 127) (exec (.perma .g8) ramp) = some 0x7F := by decide

/-- 95_test_vectors.md section 3.1. -/
theorem test_gfmul_reduces : reads State.r (exec (.gfmul 0x53 0xCA) ramp) = some 0x8F := by decide
theorem test_gfmul_all_ones : reads State.r (exec (.gfmul 0xFF 0xFF) ramp) = some 0xE2 := by decide

/-- 95_test_vectors.md section 3.2. -/
theorem test_gfinv_two : reads State.r (exec (.gfinv 0x02) ramp) = some 0x8E := by decide
theorem test_gfinv_zero : reads State.r (exec (.gfinv 0x00) ramp) = some 0x00 := by decide

/-- 95_test_vectors.md section 3.3. -/
theorem test_sbox_s1 : reads State.r (exec (.sbox 1 0x00) ramp) = some 0xCE := by decide
theorem test_sbox_s2 : reads State.r (exec (.sbox 2 0x7F) ramp) = some 0x33 := by decide

/-! ## The first instruction after reset -/

theorem test_first_command :
    reads (fun t => (t.st, t.r)) (step (State.reset.withFetchWord 32 0x20000307)) = some (.idle, 0x09) := by decide
theorem test_first_word_illegal :
    reads (fun t => (t.st, t.cause)) (step (State.reset.withFetchWord 32 0x06000000)) = some (.fault, .illegal) := by
  decide

/-! ## Witnesses: concrete states and operands that meet all hypotheses of each statement, at the boundaries of each
clause -/

/-- A state in the middle of hashing no bytes with the variant `v`. -/
def fresh (v : Variant) : State :=
  { zeroState .accepting v .none with h := writeFirst (Vector.replicate 128 0) (ivBytes (variantGeom v)) }

/-- A state that has digested no bytes with the variant `v`. -/
def digested (v : Variant) : State :=
  { zeroState .finalized v .none with digest := writeFirst (Vector.replicate 64 0) (kupyna v []) }

theorem absorbed_fresh (v : Variant) : Absorbed [] (fresh v) where
  accepting := rfl
  fill := by simp [fresh, zeroState]
  buffered := by simp [fresh, zeroState, firstBytes]
  counted := rfl
  chained := by
    rw [show chainBlocks (variantGeom (fresh v).var) (ivBytes (variantGeom (fresh v).var)) []
      (([] : Bytes).length / variantBlock (fresh v).var) = ivBytes (variantGeom v) from by
        simp [chainBlocks, fresh, zeroState]]
    exact firstBytes_writeFirst_of_length _ _ (length_ivBytes _) (variantBlock_le _)

theorem digested_digested (v : Variant) : Digested [] (digested v) where
  finalized := rfl
  digest := firstBytes_writeFirst_of_length _ _ (length_truncate _ _ _) (variantOut_le v)

theorem inv_fresh (v : Variant) : BoundaryInv (fresh v) :=
  ⟨by simp [CauseMatches, fresh, zeroState], fun _ => ⟨[], absorbed_fresh v⟩, by simp [fresh, zeroState]⟩

theorem inv_digested (v : Variant) : BoundaryInv (digested v) :=
  ⟨by simp [CauseMatches, digested, zeroState], by simp [digested, zeroState],
    fun _ => ⟨[], digested_digested v⟩⟩

theorem witness_CommandWordsRoundTrip :
    (Instr.dget 255).WellFormed = true ∧ (Instr.wput 0 0xFF).WellFormed = true ∧
    (Instr.sbox 3 0).WellFormed = true := by decide

theorem witness_DecodedWordsEncodeBack :
    decode 0x1000FFFF = .command (.wput 255 0xFF) ∧ decode 0x00000000 = .command .nop := by decide

/-- Opcodes at both ends of each undefined range, a reserved bit at each end of a word, and a step that takes the
fault. -/
theorem witness_IllegalWordsFault :
    ([0x06000000, 0x0F000000, 0x1B000000, 0x1F000000, 0x23000000, 0xFF000000] : List Word).all
      (fun w => decode w == .illegal .undefinedOpcode) = true ∧
    decode 0x00000001 = .illegal .reservedBit ∧ decode 0x22FFFFFF = .illegal .reservedBit ∧
    { ramp with host := [.command 0x06000000] }.host = .command 0x06000000 :: [] ∧
    { ramp with host := [.command 0x06000000] }.st ≠ .fault :=
  ⟨by decide, by decide, by decide, rfl, by decide⟩

theorem witness_StepRunsDecodedCommand :
    (State.reset.withFetchWord 32 0x0100_0003).host = .command 0x01000003 :: [] ∧
    decode 0x01000003 = .command (.init .k512) := by decide

theorem witness_NothingAcceptedNothingDone :
    ramp.host = [] ∧ { ramp with host := [.idle] }.host = .idle :: [] ∧
    { ramp with host := [.notReady 0xFFFFFFFF] }.host = .notReady 0xFFFFFFFF :: [] := by decide

theorem witness_HardwareResetClearsScalars :
    { faulted with host := [.reset] }.host = .reset :: [] ∧
    { fresh .k384 with host := [.resetDuring 0x04000000, .idle] }.host = .resetDuring 0x04000000 :: [.idle] := by
  decide

/-- In FAULT: a legal word, an illegal one, and a step that leaves FAULT. -/
theorem witness_FaultStateIsTerminal :
    faulted.st = .fault ∧
    { faulted with host := [.command 0xFFFFFFFF] }.host = .command 0xFFFFFFFF :: [] ∧
    { faulted with host := [.command 0x01000001] }.host = .command 0x01000001 :: [] ∧
    reads State.st (step { faulted with host := [.reset] }) = some .idle := by decide

/-- Each fault of R127's table at the boundary of its operand, and the command next to it that does not fault. -/
theorem witness_FaultsArePrecise :
    faultCause .idle .k48 .reset = some .usageIdle ∧ faultCause .accepting .k48 .reset = none ∧
    faultCause .idle .k48 (.absorb 0) = some .usageIdle ∧ faultCause .accepting .k48 (.absorb 0) = none ∧
    faultCause .finalized .k48 .final = some .usageFinalized ∧ faultCause .accepting .k48 .final = none ∧
    faultCause .accepting .k512 (.dget 200) = some .noDigest ∧
    faultCause .finalized .k256 (.dget 32) = some .range ∧ faultCause .finalized .k256 (.dget 31) = none ∧
    faultCause .idle .k48 (.wput 128 0) = some .range ∧ faultCause .idle .k48 (.wput 127 0) = none ∧
    faultCause .idle .k48 (.wget 128) = some .range ∧ faultCause .idle .k48 (.wget 127) = none ∧
    ramp.st ≠ .fault := by decide

theorem witness_TransitionTableHolds : decode 0x0F000000 = .illegal .undefinedOpcode := by decide

/-- A command of each kind that answers a next state, a fault entry among them. -/
theorem witness_CommandsWriteOnlyTheirRegisters :
    (∃ t, exec (.init .k48) ramp = .next t) ∧ (∃ t, exec (.absorb 1) (fresh .k256) = .next t) ∧
    (∃ t, exec .final (fresh .k256) = .next t) ∧ (∃ t, exec (.subb .g16) ramp = .next t) ∧
    (∃ t, exec (.dget 0) ramp = .next t ∧ t.cause ≠ ramp.cause) ∧
    (∃ t, exec (.gfinv 2) ramp = .next t ∧ t.st ≠ .fault) :=
  ⟨⟨_, rfl⟩, ⟨_, rfl⟩, ⟨_, rfl⟩, ⟨_, rfl⟩, ⟨_, rfl, by decide⟩, ⟨_, rfl, by decide⟩⟩

/-- The four values of ST, which every statement of one command splits on: FAULT, and each of the other three. -/
theorem witness_states :
    faulted.st = .fault ∧ ramp.st = .idle ∧ (fresh .k48).st = .accepting ∧ (digestRamp .k48).st = .finalized := by
  decide

theorem witness_InitStartsAHasher :
    faulted.st = .fault ∧ ramp.st ≠ .fault ∧ (fresh .k48).st ≠ .fault ∧ variantBlock .k48 = 64 ∧
    variantBlock .k512 = 128 := by decide

theorem witness_ResetRestartsTheHasher :
    faulted.st = .fault ∧ ramp.st = .idle ∧ (fresh .k48).st = .accepting ∧ (digestRamp .k512).st = .finalized := by
  decide

/-- One byte short of a block, and the byte that completes it, for both block lengths. -/
theorem witness_AbsorbTakesOneByte :
    faulted.st = .fault ∧ ramp.st = .idle ∧ (digestRamp .k48).st = .finalized ∧
    (filling .k256 0).st = .accepting ∧ (filling .k256 0).blen.toNat + 1 < variantBlock .k256 ∧
    (filling .k256 62).blen.toNat + 1 < variantBlock .k256 ∧
    (filling .k256 63).blen.toNat + 1 = variantBlock .k256 ∧
    (filling .k512 126).blen.toNat + 1 < variantBlock .k512 ∧
    (filling .k512 127).st = .accepting ∧ (filling .k512 127).blen.toNat + 1 = variantBlock .k512 := by decide

theorem witness_FinalProducesTheDigest :
    faulted.st = .fault ∧ ramp.st = .idle ∧ (digestRamp .k48).st = .finalized ∧
    (filling .k48 0).st = .accepting ∧ (filling .k48 0).blen.toNat < variantBlock .k48 ∧
    (filling .k48 63).blen.toNat < variantBlock .k48 ∧ (filling .k512 127).blen.toNat < variantBlock .k512 := by
  decide

theorem witness_DgetReadsTheDigest :
    faulted.st = .fault ∧ ramp.st = .idle ∧ (fresh .k48).st = .accepting ∧ (digestRamp .k48).st = .finalized ∧
    variantOut .k48 ≤ 6 ∧ 5 < variantOut .k48 ∧ variantOut .k256 ≤ 32 ∧ 31 < variantOut .k256 ∧
    variantOut .k384 ≤ 48 ∧ 47 < variantOut .k384 ∧ variantOut .k512 ≤ 64 ∧ 63 < variantOut .k512 := by decide

theorem witness_WputWritesOneByte :
    faulted.st = .fault ∧ ramp.st ≠ .fault ∧ 127 < 128 ∧ 128 ≤ 128 := by decide

theorem witness_WgetReadsOneByte :
    faulted.st = .fault ∧ (digestRamp .k48).st ≠ .fault ∧ 127 < 128 ∧ 128 ≤ 128 := by decide

/-- The last row of the last column for each geometry, and the first and last byte above an 8-column matrix. -/
theorem witness_AddcxXorsTheRoundConstant :
    faulted.st = .fault ∧ ramp.st ≠ .fault ∧ 7 < 8 ∧ 7 < cols .g8 ∧ 15 < cols .g16 ∧ blockBytes .g8 ≤ 64 := by
  decide
theorem witness_AddcaAddsTheRoundConstant :
    faulted.st = .fault ∧ ramp.st ≠ .fault ∧ 7 < cols .g8 ∧ 15 < cols .g16 ∧ blockBytes .g8 ≤ 127 := by decide
theorem witness_SubbSubstitutesByRow :
    faulted.st = .fault ∧ (fresh .k48).st ≠ .fault ∧ 7 < cols .g8 ∧ 15 < cols .g16 ∧ blockBytes .g8 ≤ 64 := by decide
theorem witness_ShiftRotatesTheRows :
    faulted.st = .fault ∧ ramp.st ≠ .fault ∧ 7 < 8 ∧ 7 < cols .g8 ∧ 15 < cols .g16 ∧ blockBytes .g8 ≤ 64 := by decide
theorem witness_MixcMultipliesTheColumns :
    faulted.st = .fault ∧ ramp.st ≠ .fault ∧ 7 < cols .g8 ∧ 15 < cols .g16 ∧ blockBytes .g8 ≤ 64 := by decide
theorem witness_RndxIsFourSteps : faulted.st = .fault ∧ ramp.st ≠ .fault := by decide
theorem witness_RndaIsFourSteps : faulted.st = .fault ∧ (fresh .k48).st ≠ .fault := by decide
theorem witness_PermxIsTheRounds : faulted.st = .fault ∧ (digestRamp .k48).st ≠ .fault := by decide
theorem witness_PermaIsTheRounds : faulted.st = .fault ∧ ramp.st ≠ .fault := by decide

/-- Two running states that agree on `W[0..63]` and differ above it. -/
theorem witness_NarrowCommandsKeepTheUpperHalf :
    ramp.st ≠ .fault ∧ { ramp with w := ramp.w.set 64 0xFF }.st ≠ .fault ∧
    (∀ n, n < 64 → byteAt ramp.w n = byteAt { ramp with w := ramp.w.set 64 0xFF }.w n) ∧
    (∃ t, exec (.permx .g8) ramp = .next t) ∧
    (∃ t, exec (.permx .g8) { ramp with w := ramp.w.set 64 0xFF } = .next t) :=
  ⟨by decide, by decide, by
      intro n hn
      exact (byteAt_set_ne ramp.w 0xFF (by decide) (by omega) (by omega)).symm, ⟨_, rfl⟩, ⟨_, rfl⟩⟩

theorem witness_MixColumnsIsLinear :
    (firstBytes ramp.w 64).length = blockBytes .g8 ∧ (firstBytes ramp.w 128).length = blockBytes .g16 := by simp

theorem witness_PermutationsAreBijections :
    (firstBytes ramp.w 64).length = blockBytes .g8 ∧ (firstBytes ramp.w 128).length = blockBytes .g16 ∧
    permX .g8 (firstBytes ramp.w 64) = permX .g8 (firstBytes ramp.w 64) := ⟨by simp, by simp, rfl⟩

theorem witness_GfmulMultiplies : faulted.st = .fault ∧ ramp.st ≠ .fault := by decide
theorem witness_GfinvInverts :
    faulted.st = .fault ∧ ramp.st ≠ .fault ∧ (0xFF : Byte) ≠ 0 ∧ gfmul 0xFF 0xFD = 1 := by decide
theorem witness_SboxLooksUp : faulted.st = .fault ∧ ramp.st ≠ .fault := by decide
theorem witness_FieldLawsHold : gfmul 0 5 = 0 ∧ (0x02 : Byte) ≠ 0 ∧ 0 < 254 ∧ 254 < 255 := by decide

theorem witness_CompressCombinesTheBranches :
    (ivBytes .g8).length = blockBytes .g8 ∧ (firstBytes ramp.w 128).length = blockBytes .g16 := by simp

/-- The largest tail that fits one block with its padding, the next one, and the largest tail, for both lengths. -/
theorem witness_PaddingFillsOneOrTwoBlocks :
    (firstBytes ramp.w 51).length + 13 ≤ blockBytes .g8 ∧ ¬ (firstBytes ramp.w 52).length + 13 ≤ blockBytes .g8 ∧
    (firstBytes ramp.w 63).length < blockBytes .g8 ∧
    (firstBytes ramp.w 115).length + 13 ≤ blockBytes .g16 ∧
    ¬ (firstBytes ramp.w 116).length + 13 ≤ blockBytes .g16 ∧
    (firstBytes ramp.w 127).length < blockBytes .g16 := by simp

/-- A tail with zero bytes between, one with none (51 bytes of 64), and two equal messages. -/
theorem witness_PaddingHasTheStatedShape :
    ([] : Bytes).length < blockBytes .g8 ∧ 0 < 1 ∧ 1 < (pad 64 [] 0).length - 12 ∧
    (firstBytes ramp.w 51).length < blockBytes .g8 ∧ (pad 64 (firstBytes ramp.w 51) 408).length = 64 ∧
    8 * (firstBytes ramp.w 64).length < 2 ^ 96 ∧
    paddedMessage (blockBytes .g8) [1] = paddedMessage (blockBytes .g8) [1] := by
  simp [pad, padZeros]

theorem witness_InitBeginsTheEmptyMessage : ramp.st ≠ .fault ∧ (digestRamp .k48).st ≠ .fault := by decide

theorem witness_AbsorbExtendsTheMessage : Absorbed [] (fresh .k512) ∧ (fresh .k512).st = .accepting :=
  ⟨absorbed_fresh _, rfl⟩

theorem witness_FinalDigestsTheMessage : Absorbed [] (fresh .k48) := absorbed_fresh _

theorem witness_OtherCommandsKeepTheMessage :
    (Instr.nop = .nop ∨ engineDirect .nop = true) ∧ exec .nop (digested .k48) = .next (digested .k48) ∧
    Digested [] (digested .k48) ∧ (digested .k48).st ≠ .fault ∧
    engineDirect (.permx .g8) = true ∧ (∃ t, exec (.permx .g8) (fresh .k48) = .next t ∧ t.st ≠ .fault) ∧
    Absorbed [] (fresh .k48) :=
  ⟨.inl rfl, rfl, digested_digested _, by simp [digested, zeroState], rfl, ⟨_, rfl, by simp [fresh, zeroState]⟩,
    absorbed_fresh _⟩

theorem witness_HashComputesKupyna : ramp.st ≠ .fault ∧ (fresh .k48).st ≠ .fault := by decide

theorem witness_UpdateIgnoresChunking : Absorbed [] (fresh .k48) ∧ Absorbed [] (fresh .k512) :=
  ⟨absorbed_fresh _, absorbed_fresh _⟩

/-- A hasher command, and an engine-direct command in two states that agree on W and R only. -/
theorem witness_HasherAndEngineAreSeparate :
    engineDirect (.absorb 1) = false ∧ (∃ t, exec (.absorb 1) (fresh .k48) = .next t) ∧
    engineDirect (.wget 128) = true ∧ (digestRamp .k384).st ≠ .fault ∧ (fresh .k48).st ≠ .fault ∧
    (digestRamp .k384).w = (fresh .k48).w ∧ (digestRamp .k384).r = (fresh .k48).r ∧
    (∃ t, exec (.wget 128) (digestRamp .k384) = .next t) ∧ (∃ t, exec (.wget 128) (fresh .k48) = .next t) :=
  ⟨rfl, ⟨_, rfl⟩, rfl, by decide, by decide, rfl, rfl, ⟨_, rfl⟩, ⟨_, rfl⟩⟩

/-- The invariant holds while ACCEPTING and after FINAL, in states that have a step. -/
theorem witness_BoundaryInvariantIsKept :
    BoundaryInv (fresh .k48) ∧ BoundaryInv (digested .k512) ∧ step (fresh .k48) = .next (fresh .k48) ∧
    step (digested .k512) = .next (digested .k512) := ⟨inv_fresh _, inv_digested _, rfl, rfl⟩

/-- A buffer one byte short of a block, with the byte that completes it presented. -/
theorem witness_BufferNeverHoldsABlock :
    CauseMatches { filling .k512 127 with host := [.command 0x03000061] } ∧
    { filling .k512 127 with host := [.command 0x03000061] }.blen.toNat < variantBlock .k512 ∧
    reads (fun t => (t.st, t.blen)) (step { filling .k512 127 with host := [.command 0x03000061] }) =
      some (.accepting, 0) := by decide

end Sys2Proof.Machine
end

section
/-! PROOFS. What one command and one step can do, in the terms the statements about the state need: the outcomes of
a command by the registers it writes (spec/10_state.md R28), and when a property is kept by every step. -/

namespace Sys2Proof.Machine

/-! ## The outcomes of a command -/

/-- Everything an executed command can lead to from `s`: it is ignored in FAULT, it faults (R161), or it writes the
registers of its row of R28. The commands that write only R and those that write only W are one case each. -/
inductive CommandOutcome (s : State) : Instr → State → Prop where
  | ignored {i : Instr} (hs : s.st = .fault) : CommandOutcome s i s
  | faulted {i : Instr} {x : Cause} (hs : s.st ≠ .fault) (hx : x ≠ .none) : CommandOutcome s i (raiseFault x s)
  | nop (hs : s.st ≠ .fault) : CommandOutcome s .nop s
  | init (v : Variant) (hs : s.st ≠ .fault) : CommandOutcome s (.init v) (startHasher v s)
  | reset (hs : s.st ≠ .fault) : CommandOutcome s .reset (startHasher s.var s)
  | absorb (b : Byte) (hs : s.st = .accepting) : CommandOutcome s (.absorb b) (absorbByte b s)
  | final (hs : s.st = .accepting) : CommandOutcome s .final (finalize s)
  | result {i : Instr} (v : Byte) (hs : s.st ≠ .fault)
      (hi : i.mnemonic ∈ ["DGET", "WGET", "GFMUL", "GFINV", "SBOX"]) : CommandOutcome s i (writeR v s)
  | working {i : Instr} (x : Vector Byte 128) (hs : s.st ≠ .fault)
      (hi : i.mnemonic ∈ ["WPUT", "ADDCX", "ADDCA", "SUBB", "SHIFT", "MIXC", "RNDX", "RNDA", "PERMX", "PERMA"]) :
      CommandOutcome s i { s with w := x }

/-- No command faults with the cause NONE (R160). -/
theorem faultCause_ne_none {st : HasherState} {v : Variant} {i : Instr} {x : Cause}
    (h : faultCause st v i = some x) : x ≠ .none := by
  rintro rfl
  cases i <;> cases st <;> simp [faultCause] at h

/-- ABSORB and FINAL take effect only while ACCEPTING (R123, R124). -/
theorem accepting_of_faultCause_absorb {s : State} {b : Byte} (hs : s.st ≠ .fault)
    (h : faultCause s.st s.var (.absorb b) = none) : s.st = .accepting := by
  cases hst : s.st <;> simp_all [faultCause]

theorem accepting_of_faultCause_final {s : State} (hs : s.st ≠ .fault)
    (h : faultCause s.st s.var .final = none) : s.st = .accepting :=
  accepting_of_faultCause_absorb (b := 0) hs h

/-- A command's own effect, sorted by the registers it writes. -/
theorem commandOutcome_effect {i : Instr} {s : State} (hs : s.st ≠ .fault) (h : faultCause s.st s.var i = none) :
    CommandOutcome s i (commandEffect i s) := by
  cases i with
  | nop => exact .nop hs
  | init v => exact .init v hs
  | reset => exact .reset hs
  | absorb b => exact .absorb b (accepting_of_faultCause_absorb hs h)
  | final => exact .final (accepting_of_faultCause_final hs h)
  | wput n b =>
    have hn : n < 128 := by simpa [faultCause, hs] using h
    simp only [commandEffect, dif_pos hn]
    exact .working _ hs (by simp [Instr.mnemonic])
  | wget n =>
    have hn : n < 128 := by simpa [faultCause, hs] using h
    simp only [commandEffect, dif_pos hn]
    exact .result _ hs (by simp [Instr.mnemonic])
  | dget | gfmul | gfinv | sbox => exact .result _ hs (by simp [Instr.mnemonic])
  | addcx | addca | subb | shift | mixc | rndx | rnda | permx | perma =>
    exact .working _ hs (by simp [Instr.mnemonic])

/-- Every answer of a command is one of its outcomes. -/
theorem exec_outcome {i : Instr} {s t : State} (h : exec i s = .next t) : CommandOutcome s i t := by
  obtain ⟨hs, rfl⟩ | ⟨hs, x, hx, rfl⟩ | ⟨hs, hc, rfl⟩ := exec_cases h
  · exact .ignored hs
  · exact .faulted hs (faultCause_ne_none hx)
  · exact commandOutcome_effect hs hc

/-! ## Properties kept by every step -/

/-- A property is kept by every step when it does not depend on the host's further inputs, holds after every hardware
reset, and is kept by fault entry and by every command. -/
theorem step_keeps {P : State → Prop}
    (host : ∀ s rest, P s → P { s with host := rest })
    (reset : ∀ n rest, P (State.afterReset n rest))
    (fault : ∀ s x, x ≠ .none → P s → P (raiseFault x s))
    (command : ∀ i s t, CommandOutcome s i t → P s → P t)
    {s t : State} (hs : P s) (h : step s = .next t) : P t := by
  obtain ⟨-, he⟩ | ⟨y, rest, -, ⟨w, -, he⟩ | ⟨-, he⟩ | ⟨-, he⟩⟩ := step_cases s
  case inl => cases he.symm.trans h; exact hs
  case inr.inr.inl => cases he.symm.trans h; exact host s rest hs
  case inr.inr.inr => cases he.symm.trans h; exact reset _ rest
  case inr.inl =>
    have hr := host s rest hs
    obtain ⟨-, ha⟩ | ⟨-, -, ha⟩ | ⟨-, i, -, ha⟩ := acceptWord_cases w { s with host := rest }
    · cases (he.trans ha).symm.trans h; exact hr
    · cases (he.trans ha).symm.trans h; exact fault _ .illegal (by decide) hr
    · exact command i _ t (exec_outcome ((he.trans ha).symm.trans h)) hr

end Sys2Proof.Machine
end

section
/-! PROOFS. The hasher registers as the record of a message: beginning, extending and digesting it
(spec/10_state.md R26, spec/46_hasher_commands.md R121 to R125). -/

namespace Sys2Proof.Machine

theorem variantBlock_pos (v : Variant) : 0 < variantBlock v := blockBytes_pos _

/-! ## The chain over the blocks of a message -/

theorem chainBlocks_zero (g : Geom) (h p : Bytes) : chainBlocks g h p 0 = h := rfl

theorem chainBlocks_succ (g : Geom) (h p : Bytes) (n : Nat) :
    chainBlocks g h p (n + 1) = compress g (chainBlocks g h p n) (blockAt (blockBytes g) p n) := by
  simp [chainBlocks, List.range_succ, loadBlock]

/-- A block that lies wholly in `p` is the same block of any extension of `p`. -/
theorem blockAt_append {nb n : Nat} {p : Bytes} (q : Bytes) (h : (n + 1) * nb ≤ p.length) :
    blockAt nb (p ++ q) n = blockAt nb p n := by
  have hn : n * nb + nb ≤ p.length := by rwa [Nat.add_mul, Nat.one_mul] at h
  unfold blockAt
  rw [List.drop_append_of_le_length (by omega), List.take_append_of_le_length (by simp; omega)]

/-- The chain value over complete blocks of `p` does not see what follows them. -/
theorem chainBlocks_append {g : Geom} {p : Bytes} (h q : Bytes) {n : Nat} (hn : n * blockBytes g ≤ p.length) :
    chainBlocks g h (p ++ q) n = chainBlocks g h p n := by
  induction n with
  | zero => rfl
  | succ n ih =>
    have hle : n * blockBytes g ≤ p.length := (Nat.mul_le_mul_right _ n.le_succ).trans hn
    rw [chainBlocks_succ, chainBlocks_succ, ih hle, blockAt_append q hn]

/-- The block that the tail of `m` forms with one more byte, when that byte completes it. -/
theorem blockAt_complete {nb : Nat} {m : Bytes} (x : Byte) (h : m.length % nb + 1 = nb) :
    blockAt nb (m ++ [x]) (m.length / nb) = m.drop (m.length / nb * nb) ++ [x] := by
  have hd := Nat.div_add_mod' m.length nb
  unfold blockAt
  rw [List.drop_append_of_le_length (by omega), List.take_of_length_le (by simp; omega)]

/-! ## Absorbing -/

/-- A fresh hasher has absorbed the empty message (R26, R121). -/
theorem absorbed_startHasher (v : Variant) (s : State) : Absorbed [] (startHasher v s) where
  accepting := rfl
  fill := by simp
  buffered := by simp [firstBytes]
  counted := rfl
  chained := by
    rw [List.length_nil, Nat.zero_div, chainBlocks_zero]
    exact firstBytes_writeFirst_of_length _ _ (length_ivBytes _) (variantBlock_le _)

/-- The message absorbed does not depend on W, R and what the host will do (R19, R20). -/
theorem Absorbed.setOthers {m : Bytes} {s : State} (h : Absorbed m s) (w : Vector Byte 128) (r : Byte)
    (hs : List HostInput) : Absorbed m { s with w := w, r := r, host := hs } :=
  ⟨h.accepting, h.fill, h.buffered, h.counted, h.chained⟩

/-- While ACCEPTING the buffer holds less than a block (R15). -/
theorem Absorbed.blen_lt {m : Bytes} {s : State} (h : Absorbed m s) : s.blen.toNat < variantBlock s.var := by
  rw [h.fill]; exact Nat.mod_lt _ (variantBlock_pos _)

/-- BLEN after a byte that leaves the block incomplete: no wrap-around, since NB is at most 128. -/
theorem toNat_blen_absorbByte_of_room (x : Byte) {s : State} (h : s.blen.toNat + 1 < variantBlock s.var) :
    (absorbByte x s).blen.toNat = s.blen.toNat + 1 := by
  have hblen : (absorbByte x s).blen = s.blen + 1 := by rw [absorbByte_of_room h.ne]
  have := variantBlock_le s.var
  simp only [hblen, BitVec.toNat_add, BitVec.ofNat_eq_ofNat, BitVec.toNat_ofNat]
  omega

theorem h_absorbByte_of_room (x : Byte) {s : State} (h : s.blen.toNat + 1 < variantBlock s.var) :
    (absorbByte x s).h = s.h := by rw [absorbByte_of_room h.ne]

theorem blen_absorbByte_of_full (x : Byte) {s : State} (h : s.blen.toNat + 1 = variantBlock s.var) :
    (absorbByte x s).blen = 0 := by rw [absorbByte_of_full h]

/-- The chain value after the byte that completes a block (R123). -/
theorem firstBytes_h_absorbByte_of_full (x : Byte) {s : State} (h : s.blen.toNat + 1 = variantBlock s.var) :
    firstBytes (absorbByte x s).h (variantBlock s.var) =
      compress (variantGeom s.var) (firstBytes s.h (variantBlock s.var)) (firstBytes s.b s.blen.toNat ++ [x]) := by
  have hstate : (firstBytes s.h (variantBlock s.var)).length = variantBlock s.var := by
    simpa using variantBlock_le _
  rw [absorbByte_of_full h]
  exact firstBytes_writeFirst_of_length _ _ (length_compress _ _ _ hstate) (variantBlock_le _)

/-- ABSORB counts eight more bits, modulo 2^96 (R16). -/
theorem counted_absorbByte {m : Bytes} {s : State} (h : Absorbed m s) (x : Byte) :
    (absorbByte x s).l.toNat = 8 * (m ++ [x]).length % 2 ^ 96 := by
  have hl := h.counted
  simp only [absorbByte_l, BitVec.toNat_add, BitVec.ofNat_eq_ofNat, BitVec.toNat_ofNat,
    List.length_append, List.length_singleton]
  omega

/-- ABSORB of a byte that leaves the block incomplete: the tail grows, the chain stays (R123). -/
theorem absorbed_absorbByte_of_room {m : Bytes} {s : State} (h : Absorbed m s) (x : Byte)
    (hroom : s.blen.toNat + 1 < variantBlock s.var) : Absorbed (m ++ [x]) (absorbByte x s) := by
  have hfill := h.fill
  have hblen := toNat_blen_absorbByte_of_room x hroom
  have hle : m.length / variantBlock s.var * variantBlock s.var ≤ m.length := Nat.div_mul_le_self _ _
  have hlen : (m ++ [x]).length = m.length + 1 := by simp
  have hmod : (m.length + 1) % variantBlock s.var = m.length % variantBlock s.var + 1 :=
    (Nat.mod_add_mod _ _ _).symm.trans (Nat.mod_eq_of_lt (hfill ▸ hroom))
  have hdiv : (m.length + 1) / variantBlock s.var = m.length / variantBlock s.var :=
    Nat.succ_div_of_not_dvd fun hd => by rw [Nat.dvd_iff_mod_eq_zero, hmod] at hd; omega
  refine ⟨by rw [absorbByte_st, h.accepting], ?fill, ?buffered, counted_absorbByte h x, ?chained⟩
  case fill => rw [hblen, absorbByte_var, hlen, hmod, hfill]
  case buffered =>
    rw [hblen, firstBytes_absorbByte, h.buffered, absorbByte_var, hlen, hdiv, List.drop_append_of_le_length hle]
  case chained =>
    rw [h_absorbByte_of_room x hroom, absorbByte_var, h.chained, hlen, hdiv]
    exact (chainBlocks_append _ _ hle).symm

/-- ABSORB of the byte that completes a block: the buffer is empty again and the block is folded in (R123). -/
theorem absorbed_absorbByte_of_full {m : Bytes} {s : State} (h : Absorbed m s) (x : Byte)
    (hfull : s.blen.toNat + 1 = variantBlock s.var) : Absorbed (m ++ [x]) (absorbByte x s) := by
  have hblen := blen_absorbByte_of_full x hfull
  have hmod : m.length % variantBlock s.var + 1 = variantBlock s.var := h.fill ▸ hfull
  have hle : m.length / variantBlock s.var * variantBlock s.var ≤ m.length := Nat.div_mul_le_self _ _
  have hlen : (m ++ [x]).length = (m.length / variantBlock s.var + 1) * variantBlock s.var := by
    have := Nat.div_add_mod' m.length (variantBlock s.var)
    rw [List.length_append, List.length_singleton, Nat.add_mul, Nat.one_mul]
    omega
  have hdiv : (m ++ [x]).length / variantBlock s.var = m.length / variantBlock s.var + 1 := by
    rw [hlen, Nat.mul_div_cancel _ (variantBlock_pos _)]
  refine ⟨by rw [absorbByte_st, h.accepting], ?fill, ?buffered, counted_absorbByte h x, ?chained⟩
  case fill =>
    rw [hblen, absorbByte_var, hlen, Nat.mul_mod_left]
    rfl
  case buffered =>
    rw [hblen, absorbByte_var, hdiv, ← hlen, List.drop_length]
    rfl
  case chained =>
    rw [absorbByte_var, firstBytes_h_absorbByte_of_full x hfull, hdiv, chainBlocks_succ, chainBlocks_append _ _ hle,
      ← h.chained, h.buffered]
    exact congrArg _ (blockAt_complete x hmod).symm

/-- ABSORB extends the message absorbed by its byte (R26 (b) and (c), R123). -/
theorem absorbed_absorbByte {m : Bytes} {s : State} (h : Absorbed m s) (x : Byte) :
    Absorbed (m ++ [x]) (absorbByte x s) := by
  obtain hroom | hfull := Nat.lt_or_eq_of_le (Nat.succ_le_of_lt h.blen_lt)
  · exact absorbed_absorbByte_of_room h x hroom
  · exact absorbed_absorbByte_of_full h x hfull

/-! ## The digest -/

/-- FINAL leaves the digest of the message absorbed (R26 (d), R125). -/
theorem digested_finalize {m : Bytes} {s : State} (h : Absorbed m s) : Digested m (finalize s) where
  finalized := rfl
  digest := by
    have hd : (finalize s).digest = writeFirst s.digest (kupyna s.var m) := by
      have hc := h.chained
      unfold variantBlock at hc
      simp only [finalize, kupyna, hc, h.buffered, h.counted]
      rfl
    rw [hd, finalize_var]
    exact firstBytes_writeFirst_of_length _ _ (length_truncate _ _ _) (variantOut_le _)

/-- The digest produced does not depend on W, R and what the host will do (R19, R20). -/
theorem Digested.setOthers {m : Bytes} {s : State} (h : Digested m s) (w : Vector Byte 128) (r : Byte)
    (hs : List HostInput) : Digested m { s with w := w, r := r, host := hs } :=
  ⟨h.finalized, h.digest⟩

end Sys2Proof.Machine
end

section
/-! PROOFS. The three parts of the invariant of R26, each kept by every step. -/

namespace Sys2Proof.Machine

/-! ## CAUSE is NONE exactly outside FAULT -/

theorem causeMatches_raiseFault {x : Cause} (s : State) (hx : x ≠ .none) : CauseMatches (raiseFault x s) :=
  ⟨fun _ => hx, fun _ => rfl⟩

/-- A change that neither enters nor leaves FAULT and keeps CAUSE. -/
theorem CauseMatches.of_running {s t : State} (h : CauseMatches s) (hs : s.st ≠ .fault) (ht : t.st ≠ .fault)
    (hc : t.cause = s.cause) : CauseMatches t := by
  simp only [CauseMatches, hc]
  exact ⟨fun hf => absurd hf ht, fun hn => absurd (h.2 hn) hs⟩

theorem CommandOutcome.causeMatches {i : Instr} {s t : State} (h : CommandOutcome s i t) (hs : CauseMatches s) :
    CauseMatches t := by
  cases h with
  | ignored | nop => exact hs
  | faulted _ hx => exact causeMatches_raiseFault s hx
  | init v hr => exact hs.of_running hr (by simp) rfl
  | reset hr => exact hs.of_running hr (by simp) rfl
  | absorb b ha => exact hs.of_running (by simp [ha]) (by simp [ha]) (absorbByte_cause b s)
  | final ha => exact hs.of_running (by simp [ha]) (by simp) rfl
  | result v hr => exact hs.of_running hr hr rfl
  | working x hr => exact hs.of_running hr hr rfl

theorem causeMatches_afterReset (n : Nat) (rest : List HostInput) : CauseMatches (State.afterReset n rest) := by
  simp [CauseMatches]

theorem step_keeps_causeMatches {s t : State} (hs : CauseMatches s) (h : step s = .next t) : CauseMatches t :=
  step_keeps (P := CauseMatches) (fun _ _ h => h) causeMatches_afterReset
    (fun s _ hx _ => causeMatches_raiseFault s hx) (fun _ _ _ ho h => ho.causeMatches h) hs h

/-! ## The buffer holds less than a block -/

/-- While ACCEPTING, BLEN is below NB (R15). -/
def HasRoom (s : State) : Prop := s.st = .accepting → s.blen.toNat < variantBlock s.var

theorem hasRoom_startHasher (v : Variant) (s : State) : HasRoom (startHasher v s) :=
  fun _ => variantBlock_pos v

/-- ABSORB empties the buffer when it completes a block (R123). -/
theorem hasRoom_absorbByte (x : Byte) {s : State} (h : s.blen.toNat < variantBlock s.var) :
    HasRoom (absorbByte x s) := by
  intro _
  rw [absorbByte_var]
  obtain hroom | hfull := Nat.lt_or_eq_of_le (Nat.succ_le_of_lt h)
  · rwa [toNat_blen_absorbByte_of_room x hroom]
  · rw [blen_absorbByte_of_full x hfull]
    exact variantBlock_pos _

theorem CommandOutcome.hasRoom {i : Instr} {s t : State} (h : CommandOutcome s i t) (hs : HasRoom s) :
    HasRoom t := by
  cases h with
  | ignored | nop | result | working => exact hs
  | faulted | final => exact fun ha => by simp at ha
  | init | reset => exact hasRoom_startHasher _ s
  | absorb b ha => exact hasRoom_absorbByte b (hs ha)

theorem step_keeps_hasRoom {s t : State} (hs : HasRoom s) (h : step s = .next t) : HasRoom t :=
  step_keeps (P := HasRoom) (fun _ _ h => h) (fun _ _ ha => by simp at ha) (fun _ _ _ _ ha => by simp at ha)
    (fun _ _ _ ho h => ho.hasRoom h) hs h

/-! ## The hasher registers are those of a message -/

/-- The hasher registers stand for a message: the one absorbed so far, or the one digested (R26 (b) to (d)). -/
structure HasMessage (s : State) : Prop where
  absorbed : s.st = .accepting → ∃ m, Absorbed m s
  digested : s.st = .finalized → ∃ m, Digested m s

theorem HasMessage.of_absorbed {m : Bytes} {s : State} (h : Absorbed m s) : HasMessage s :=
  ⟨fun _ => ⟨m, h⟩, fun hf => by simp [h.accepting] at hf⟩

theorem HasMessage.of_digested {m : Bytes} {s : State} (h : Digested m s) : HasMessage s :=
  ⟨fun ha => by simp [h.finalized] at ha, fun _ => ⟨m, h⟩⟩

theorem hasMessage_raiseFault (x : Cause) (s : State) : HasMessage (raiseFault x s) :=
  ⟨fun h => by simp at h, fun h => by simp at h⟩

theorem hasMessage_afterReset (n : Nat) (rest : List HostInput) : HasMessage (State.afterReset n rest) :=
  ⟨fun h => by simp at h, fun h => by simp at h⟩

theorem HasMessage.setOthers {s : State} (h : HasMessage s) (w : Vector Byte 128) (r : Byte) (hs : List HostInput) :
    HasMessage { s with w := w, r := r, host := hs } :=
  ⟨fun ha => (h.absorbed ha).imp fun _ hm => hm.setOthers w r hs,
    fun hf => (h.digested hf).imp fun _ hm => hm.setOthers w r hs⟩

theorem CommandOutcome.hasMessage {i : Instr} {s t : State} (h : CommandOutcome s i t) (hs : HasMessage s) :
    HasMessage t := by
  cases h with
  | ignored | nop => exact hs
  | faulted => exact hasMessage_raiseFault _ s
  | init | reset => exact .of_absorbed (absorbed_startHasher _ s)
  | absorb b ha =>
    obtain ⟨m, hm⟩ := hs.absorbed ha
    exact .of_absorbed (absorbed_absorbByte hm b)
  | final ha =>
    obtain ⟨m, hm⟩ := hs.absorbed ha
    exact .of_digested (digested_finalize hm)
  | result v => exact hs.setOthers s.w v s.host
  | working x => exact hs.setOthers x s.r s.host

theorem step_keeps_hasMessage {s t : State} (hs : HasMessage s) (h : step s = .next t) : HasMessage t :=
  step_keeps (P := HasMessage) (fun s rest h => h.setOthers s.w s.r rest) hasMessage_afterReset
    (fun s x _ _ => hasMessage_raiseFault x s) (fun _ _ _ ho h => ho.hasMessage h) hs h

/-- The invariant of R26 in its two independent parts. -/
theorem boundaryInv_iff {s : State} : BoundaryInv s ↔ CauseMatches s ∧ HasMessage s :=
  ⟨fun h => ⟨h.cause, h.absorbed, h.digested⟩, fun ⟨hc, hm⟩ => ⟨hc, hm.absorbed, hm.digested⟩⟩

end Sys2Proof.Machine
end

section
/-! PROOFS. No hasher command sees W and no engine-direct command sees the hasher (spec/10_state.md R19). -/

namespace Sys2Proof.Machine

/-! ## The hasher commands -/

theorem absorbByte_setW (b : Byte) (s : State) (x : Vector Byte 128) :
    absorbByte b { s with w := x } = { absorbByte b s with w := x } := by
  unfold absorbByte
  dsimp only
  split <;> rfl

/-- The effect of a hasher command with another working matrix is its effect, with that matrix. -/
theorem commandEffect_setW {i : Instr} (hi : engineDirect i = false) (s : State) (x : Vector Byte 128) :
    commandEffect i { s with w := x } = { commandEffect i s with w := x } := by
  cases i with
  | nop | init | reset | final | dget => rfl
  | absorb b => exact absorbByte_setW b s x
  | _ => cases hi

theorem exec_setW {i : Instr} (hi : engineDirect i = false) {s t : State} (x : Vector Byte 128)
    (h : exec i s = .next t) : exec i { s with w := x } = .next { t with w := x } := by
  obtain ⟨hs, rfl⟩ | ⟨_, _, hc, rfl⟩ | ⟨hs, hc, rfl⟩ := exec_cases h
  · exact exec_of_fault i hs
  · exact exec_of_cause (s := { s with w := x }) hc
  · rw [← commandEffect_setW hi s x]
    exact exec_of_effect (s := { s with w := x }) hs hc

/-! ## The engine-direct commands -/

/-- Whether an engine-direct command faults is decided by its operands alone, as long as the core runs. -/
theorem faultCause_engineDirect {i : Instr} (hi : engineDirect i = true) {st st' : HasherState} (v v' : Variant)
    (hs : st ≠ .fault) (hs' : st' ≠ .fault) : faultCause st v i = faultCause st' v' i := by
  cases i with
  | wput | wget => simp [faultCause, hs, hs']
  | nop | init | reset | absorb | final | dget => cases hi
  | _ => rfl

/-- What an engine-direct command leaves in W and R is decided by W and R. -/
theorem commandEffect_engineDirect_congr {i : Instr} (hi : engineDirect i = true) {s s' : State} (hw : s.w = s'.w)
    (hr : s.r = s'.r) :
    (commandEffect i s).w = (commandEffect i s').w ∧ (commandEffect i s).r = (commandEffect i s').r := by
  cases i with
  | nop | init | reset | absorb | final | dget => cases hi
  | wput n b => by_cases hn : n < 128 <;> simp [commandEffect, hn, hw, hr]
  | wget n => by_cases hn : n < 128 <;> simp [commandEffect, hn, hw, hr]
  | gfmul | gfinv | sbox => exact ⟨hw, rfl⟩
  | addcx | addca | subb | shift | mixc | rndx | rnda | permx | perma =>
    simp [commandEffect, hw, hr]

/-- An engine-direct command writes W, R and the fault registers only. -/
theorem CommandOutcome.engineDirect_frame {i : Instr} (hi : engineDirect i = true) {s t : State}
    (h : CommandOutcome s i t) : t = { s with st := t.st, cause := t.cause, w := t.w, r := t.r } := by
  cases h with
  | ignored | faulted | result | working => rfl
  | nop | init | reset | absorb | final => cases hi

/-- A command's own effect never enters FAULT. -/
theorem commandEffect_running (i : Instr) {s : State} (hs : s.st ≠ .fault) : (commandEffect i s).st ≠ .fault := by
  cases i with
  | wput n b => by_cases hn : n < 128 <;> simpa [commandEffect, hn] using hs
  | wget n => by_cases hn : n < 128 <;> simpa [commandEffect, hn] using hs
  | init | reset | final => simp [commandEffect]
  | _ => simpa [commandEffect] using hs

/-- In two running states that agree on W and R an engine-direct command leaves the same W and R and faults alike. -/
theorem exec_engineDirect_congr {i : Instr} (hi : engineDirect i = true) {s s' t t' : State} (hs : s.st ≠ .fault)
    (hs' : s'.st ≠ .fault) (hw : s.w = s'.w) (hr : s.r = s'.r) (h : exec i s = .next t) (h' : exec i s' = .next t') :
    t.w = t'.w ∧ t.r = t'.r ∧ (t.st = .fault ↔ t'.st = .fault) := by
  have hcc := faultCause_engineDirect hi s.var s'.var hs hs'
  cases hc : faultCause s.st s.var i with
  | some x =>
    cases (exec_of_cause hc).symm.trans h
    cases (exec_of_cause (hcc ▸ hc)).symm.trans h'
    exact ⟨hw, hr, Iff.rfl⟩
  | none =>
    cases (exec_of_effect hs hc).symm.trans h
    cases (exec_of_effect hs' (hcc ▸ hc)).symm.trans h'
    obtain ⟨hw', hr'⟩ := commandEffect_engineDirect_congr hi hw hr
    exact ⟨hw', hr', iff_of_false (commandEffect_running i hs) (commandEffect_running i hs')⟩

end Sys2Proof.Machine
end

section
/-! PROOFS. The statements about the state: reset, the outputs, what a command writes, the message, the invariants. -/

namespace Sys2Proof.Machine

/-- Settles O52: both parts of R26 are kept by every step. -/
theorem boundaryInvariantIsKept : Obligations.BoundaryInvariantIsKept := by
  intro s t hs h
  obtain ⟨hc, hm⟩ := boundaryInv_iff.1 hs
  exact boundaryInv_iff.2 ⟨step_keeps_causeMatches hc h, step_keeps_hasMessage hm h⟩

/-- Settles O14: outcome by outcome, the registers written are those of the command's row of R28. -/
theorem commandsWriteOnlyTheirRegisters : Obligations.CommandsWriteOnlyTheirRegisters := by
  intro i s t h
  cases exec_outcome h with
  | ignored | nop => simp
  | faulted => simp [raiseFault]
  | init | reset | final => simp [Instr.mnemonic]
  | absorb => simp [Instr.mnemonic]
  | result v _ hi =>
    exact ⟨fun _ => rfl, fun _ => rfl, fun _ => rfl, fun _ => ⟨rfl, rfl⟩, fun _ => rfl, fun _ => rfl,
      fun hn => absurd hi hn, fun _ _ => rfl, fun hc => absurd rfl hc, rfl, rfl⟩
  | working x _ hi =>
    exact ⟨fun _ => rfl, fun _ => rfl, fun _ => rfl, fun _ => ⟨rfl, rfl⟩, fun _ => rfl, fun hn => absurd hi hn,
      fun _ => rfl, fun _ _ => rfl, fun hc => absurd rfl hc, rfl, rfl⟩

/-- Settles O45: the effect of INIT is a fresh hasher. -/
theorem initBeginsTheEmptyMessage : Obligations.InitBeginsTheEmptyMessage :=
  fun v s hs => ⟨startHasher v s, exec_of_effect (i := .init v) hs rfl, absorbed_startHasher v s, rfl⟩

/-- Settles O46: ABSORB does not fault while ACCEPTING, and its effect extends the message. -/
theorem absorbExtendsTheMessage : Obligations.AbsorbExtendsTheMessage := by
  intro m x s h
  have hs : s.st ≠ .fault := by simp [h.accepting]
  have hc : faultCause s.st s.var (.absorb x) = none := by rw [h.accepting]; rfl
  exact ⟨absorbByte x s, exec_of_effect hs hc, absorbed_absorbByte h x, absorbByte_var x s⟩

/-- Settles O51: the hasher commands do not see W, the engine-direct commands see W and R only. -/
theorem hasherAndEngineAreSeparate : Obligations.HasherAndEngineAreSeparate := by
  refine ⟨fun i s t x hi h => exec_setW hi x h, fun i s s' t t' hi hs hs' hw hr h h' => ?_⟩
  obtain ⟨hw', hr', hf⟩ := exec_engineDirect_congr hi hs hs' hw hr h h'
  exact ⟨hw', hr', (exec_outcome h).engineDirect_frame hi, hf⟩

/-- Settles O54: CAUSE and the fill of the buffer are each kept by every step. -/
theorem bufferNeverHoldsABlock : Obligations.BufferNeverHoldsABlock :=
  fun _ _ hc hroom h => ⟨step_keeps_causeMatches hc h, step_keeps_hasRoom hroom h⟩

/-- Settles O8: either reset input leads to the state after reset. -/
theorem hardwareResetClearsScalars : Obligations.HardwareResetClearsScalars := by
  intro s rest h
  have hstep : step s = .next (State.afterReset (s.resets + 1) rest) := by
    obtain hr | ⟨w, hr⟩ := h <;> simp [step, hostStep, hr, takeInput, hardwareReset]
  exact ⟨_, hstep, rfl, rfl, rfl, rfl, rfl, rfl, rfl, rfl⟩

/-- Settles O9: each scalar of the state after reset is read off. -/
theorem resetStateScalars : Obligations.ResetStateScalars := ⟨rfl, rfl, rfl, rfl, rfl, rfl, rfl⟩

theorem stCode_injective : Function.Injective stCode := by
  intro a b
  cases a <;> cases b <;> simp [stCode]

theorem causeCode_injective : Function.Injective causeCode := by
  intro a b
  cases a <;> cases b <;> simp [causeCode]

theorem causeCode_le (c : Cause) : (causeCode c).toNat ≤ 5 := by cases c <;> decide

/-- Settles O15: no two values of ST, and no two of CAUSE, have the same code. -/
theorem outputsShowTheCodes : Obligations.OutputsShowTheCodes := by
  intro s
  have hst (x : HasherState) : s.outputs.st = stCode x ↔ s.st = x := stCode_injective.eq_iff
  have hc (x : Cause) : s.outputs.cause = causeCode x ↔ s.cause = x := causeCode_injective.eq_iff
  exact ⟨rfl, hst .idle, hst .accepting, hst .finalized, hst .fault, hc .none, hc .usageFinalized, hc .usageIdle,
    hc .noDigest, hc .range, hc .illegal, causeCode_le s.cause⟩

/-- Settles O53: after reset CAUSE is NONE and no message has begun. -/
theorem boundaryInvariantAtReset : Obligations.BoundaryInvariantAtReset :=
  boundaryInv_iff.2 ⟨causeMatches_afterReset 0 [], hasMessage_afterReset 0 []⟩

end Sys2Proof.Machine
end

section
/-! PROOFS. The step on an accepted word: an accepted command is executed, whatever the state
(spec/20_memory.md R40, spec/30_encoding.md R46, spec/60_exceptions.md R167). -/

namespace Sys2Proof.Machine

/-- When the host presents a word, the step takes it off the list and accepts it. -/
theorem step_of_command {s : State} {w : Word} {rest : List HostInput} (h : s.host = .command w :: rest) :
    step s = acceptWord w { s with host := rest } := by
  simp only [step, hostStep, h, takeInput]

/-- Accepting a command is executing it: outside FAULT the decoder decides, and in FAULT both sides ignore it. -/
theorem acceptWord_of_decode {w : Word} {i : Instr} (hd : decode w = .command i) (s : State) :
    acceptWord w s = exec i s := by
  obtain ⟨hs, ha⟩ | ⟨-, ⟨why, hw⟩, -⟩ | ⟨-, j, hj, ha⟩ := acceptWord_cases w s
  · exact ha.trans (exec_of_fault i hs).symm
  · cases hd.symm.trans hw
  · cases hd.symm.trans hj
    exact ha

/-- Settles O6: the word is taken off the list and accepted, and accepting it is executing its command. -/
theorem stepRunsDecodedCommand : Obligations.StepRunsDecodedCommand :=
  fun s _ rest _ h hd => (step_of_command h).trans (acceptWord_of_decode hd { s with host := rest })

end Sys2Proof.Machine
end

section
/-! PROOFS. The row of the command set that a command stands in, and the bytes and fields of its word: what the
decoder reads back from the encoder's word, and the other way round (spec/30_encoding.md R47 to R50). -/

namespace Sys2Proof

/-! ## The row of a command -/

/-- The place in the command set of the row that a command stands in (R49). -/
def Instr.rowNumber : Instr → Nat
  | .nop => 0
  | .init _ => 1
  | .reset => 2
  | .absorb _ => 3
  | .final => 4
  | .dget _ => 5
  | .wput _ _ => 6
  | .wget _ => 7
  | .addcx _ _ => 8
  | .addca _ _ => 9
  | .subb _ => 10
  | .shift _ => 11
  | .mixc _ => 12
  | .rndx _ _ => 13
  | .rnda _ _ => 14
  | .permx _ => 15
  | .perma _ => 16
  | .gfmul _ _ => 17
  | .gfinv _ => 18
  | .sbox _ _ => 19

theorem Instr.rowNumber_lt (i : Instr) : i.rowNumber < opcodeTable.length := by
  cases i <;> simp [Instr.rowNumber, opcodeTable]

/-- The row of the command set that a command stands in. -/
def Instr.row (i : Instr) : Row := opcodeTable[i.rowNumber]'i.rowNumber_lt

theorem Instr.row_mem (i : Instr) : i.row ∈ opcodeTable := List.getElem_mem _

theorem Instr.mnemonic_row (i : Instr) : i.row.mnemonic = i.mnemonic := by cases i <;> rfl

theorem mnemonics_nodup : (opcodeTable.map Row.mnemonic).Nodup := by decide

/-- A row of the command set with a command's mnemonic is that command's row. -/
theorem eq_row_of_mnemonic {r : Row} {i : Instr} (hr : r ∈ opcodeTable) (h : r.mnemonic = i.mnemonic) : r = i.row :=
  List.inj_on_of_nodup_map mnemonics_nodup hr i.row_mem (h.trans i.mnemonic_row.symm)

/-- The fields of a row make the row's own command, whatever the word. -/
theorem mnemonic_build {r : Row} (hr : r ∈ opcodeTable) (w : Word) : (r.build w).mnemonic = r.mnemonic := by
  have hall : ∀ r ∈ opcodeTable, (r.build w).mnemonic = r.mnemonic := by
    simp only [opcodeTable, List.forall_mem_cons]
    simp [Instr.mnemonic]
  exact hall r hr

/-- A word is the command `i` exactly when the row of `i` matches it and the row's fields make `i`. -/
theorem decode_eq_command_iff_row {w : Word} {i : Instr} :
    decode w = .command i ↔ w &&& i.row.mask = i.row.value ∧ i.row.build w = i := by
  rw [decode_eq_command_iff]
  constructor
  · rintro ⟨r, hr, hm, rfl⟩
    rw [← eq_row_of_mnemonic hr (mnemonic_build hr w).symm]
    exact ⟨hm, rfl⟩
  · exact fun h => ⟨i.row, i.row_mem, h⟩

/-! ## The bytes of a command word -/

/-- `cmd[23:16]` (R47), the byte that holds the geometry bit. -/
def fieldX (w : Word) : Byte := w.extractLsb' 16 8

/-- Bit `n` of a packed word, byte by byte from the low end. -/
theorem getLsbD_packC32 (op x y z : Byte) (n : Nat) :
    (packC32 op x y z).getLsbD n =
      if n < 8 then z.getLsbD n
      else if n - 8 < 8 then y.getLsbD (n - 8)
      else if n - 16 < 8 then x.getLsbD (n - 16) else op.getLsbD (n - 24) := by
  simp only [packC32, BitVec.getLsbD_append, Nat.sub_sub]

@[simp] theorem fieldOp_packC32 (op x y z : Byte) : fieldOp (packC32 op x y z) = op := by
  ext n hn; simp [fieldOp, getLsbD_packC32, hn, show ¬ 24 + n < 8 by omega, show ¬ 24 + n - 8 < 8 by omega,
    show ¬ 24 + n - 16 < 8 by omega]
@[simp] theorem fieldX_packC32 (op x y z : Byte) : fieldX (packC32 op x y z) = x := by
  ext n hn; simp [fieldX, getLsbD_packC32, hn, show ¬ 16 + n < 8 by omega, show ¬ 16 + n - 8 < 8 by omega]
@[simp] theorem fieldY_packC32 (op x y z : Byte) : fieldY (packC32 op x y z) = y := by
  ext n hn; simp [fieldY, getLsbD_packC32, hn]
@[simp] theorem fieldZ_packC32 (op x y z : Byte) : fieldZ (packC32 op x y z) = z := by
  ext n hn; simp [fieldZ, getLsbD_packC32, hn]

@[simp] theorem fieldOp_ofNat (n : Nat) : fieldOp (BitVec.ofNat 32 n) = BitVec.ofNat 8 (n >>> 24) := by
  apply BitVec.eq_of_toNat_eq; simp [fieldOp]; omega
@[simp] theorem fieldX_ofNat (n : Nat) : fieldX (BitVec.ofNat 32 n) = BitVec.ofNat 8 (n >>> 16) := by
  apply BitVec.eq_of_toNat_eq; simp [fieldX]; omega
@[simp] theorem fieldY_ofNat (n : Nat) : fieldY (BitVec.ofNat 32 n) = BitVec.ofNat 8 (n >>> 8) := by
  apply BitVec.eq_of_toNat_eq; simp [fieldY]; omega
@[simp] theorem fieldZ_ofNat (n : Nat) : fieldZ (BitVec.ofNat 32 n) = BitVec.ofNat 8 n := by
  apply BitVec.eq_of_toNat_eq; simp [fieldZ]

theorem byte_and_ones (b : Byte) : b &&& 255#8 = b := BitVec.and_allOnes

theorem packC32_fields (w : Word) : packC32 (fieldOp w) (fieldX w) (fieldY w) (fieldZ w) = w := by
  unfold fieldOp fieldX fieldY fieldZ packC32
  rw [BitVec.extractLsb'_append_extractLsb'_eq_extractLsb' (by omega),
    BitVec.extractLsb'_append_extractLsb'_eq_extractLsb' (by omega),
    BitVec.extractLsb'_append_extractLsb'_eq_extractLsb' (by omega)]
  simp

@[simp] theorem packC32_inj {a b c d a' b' c' d' : Byte} :
    packC32 a b c d = packC32 a' b' c' d' ↔ a = a' ∧ b = b' ∧ c = c' ∧ d = d' := by
  constructor
  · intro h
    exact ⟨by simpa using congrArg fieldOp h, by simpa using congrArg fieldX h, by simpa using congrArg fieldY h,
      by simpa using congrArg fieldZ h⟩
  · rintro ⟨rfl, rfl, rfl, rfl⟩
    rfl

/-- The match test of R49, byte by byte. -/
theorem packC32_and_eq_iff {a b c d : Byte} {m v : Word} :
    packC32 a b c d &&& m = v ↔
      a &&& fieldOp m = fieldOp v ∧ b &&& fieldX m = fieldX v ∧ c &&& fieldY m = fieldY v ∧
        d &&& fieldZ m = fieldZ v := by
  rw [← packC32_inj, ← packC32_and, packC32_fields, packC32_fields]

/-! ## The fields narrower than a byte -/

theorem fieldV_eq (w : Word) : fieldV w = variantOfCode ((fieldZ w).extractLsb' 0 2) := by
  simp [fieldV, fieldZ]

theorem fieldG_eq (w : Word) : fieldG w = if (fieldX w).getLsbD 0 then .g16 else .g8 := by
  simp [fieldG, fieldX]

theorem fieldK_eq (w : Word) : fieldK w = ((fieldY w).extractLsb' 0 2).toFin :=
  congrArg BitVec.toFin (by ext n hn; simp [fieldY]; omega)

/-! Each byte of a word that holds an operand: it passes the row's mask and its field is the operand exactly when it
is the byte the encoder writes. -/

/-- A byte without reserved bits holds the variant `v` exactly when it is the byte of `v` (R53). -/
theorem variantByte_iff (z : Byte) (v : Variant) :
    z &&& 0xFC = 0 ∧ variantOfCode (z.extractLsb' 0 2) = v ↔ z = (codeOfVariant v).setWidth 8 := by
  cases v <;> revert z <;> decide

theorem geomByte_iff (x : Byte) (g : Geom) :
    x &&& 0xFE = 0 ∧ (if x.getLsbD 0 then Geom.g16 else .g8) = g ↔ x = geomByte g := by
  cases g <;> revert x <;> decide

theorem tableByte_iff (y : Byte) (k : Fin 4) :
    y &&& 0xFC = 0 ∧ (y.extractLsb' 0 2).toFin = k ↔ y = BitVec.ofNat 8 k.val := by
  revert k y; decide

theorem indexByte_iff (z : Byte) (i : Nat) : z.toNat = i ↔ i < 256 ∧ z = BitVec.ofNat 8 i := by
  constructor
  · rintro rfl
    exact ⟨z.isLt, by simp⟩
  · rintro ⟨hi, rfl⟩
    simpa using hi

theorem fieldG_eq_iff {w : Word} {g : Geom} : fieldG w = g ↔ (g = .g16 ↔ w.getLsbD 16 = true) := by
  unfold fieldG
  cases g <;> cases w.getLsbD 16 <;> simp

theorem fieldK_eq_iff {w : Word} {k : Fin 4} : fieldK w = k ↔ k.val = (w.extractLsb' 8 2).toNat := by
  rw [eq_comm, Fin.ext_iff]
  rfl

/-! ## The decoder inverts the encoder -/

/-- A word is the command `i` exactly when it is the word of the well-formed command `i`: row by row, the match test
and the fields fix each byte of the word. -/
theorem decode_eq_command_iff_encode {w : Word} {i : Instr} :
    decode w = .command i ↔ i.WellFormed = true ∧ w = encode i := by
  obtain ⟨op, x, y, z, rfl⟩ : ∃ op x y z, w = packC32 op x y z := ⟨_, _, _, _, (packC32_fields w).symm⟩
  rw [decode_eq_command_iff_row, packC32_and_eq_iff]
  cases i
  all_goals simp [Instr.row, Instr.rowNumber, opcodeTable, encode, Instr.WellFormed, fieldV_eq, fieldG_eq, fieldK_eq,
    byte_and_ones, and_assoc]
  case init v => exact fun _ _ _ => variantByte_iff z v
  case dget i | wput i _ | wget i => rw [indexByte_iff]; tauto
  case addcx g _ | addca g _ | rndx g _ | rnda g _ => rw [← geomByte_iff]; tauto
  case subb g | shift g | mixc g | permx g | perma g => rw [← geomByte_iff]; tauto
  case sbox k _ => rw [← tableByte_iff]; tauto

/-! ## Illegal words -/

/-- The reason is an undefined opcode exactly when no row has the word's opcode (R51 (a)). -/
theorem illegalReason_eq_undefinedOpcode_iff {w : Word} :
    illegalReason w = .undefinedOpcode ↔ ∀ r ∈ opcodeTable, fieldOp w ≠ fieldOp r.value := by
  simp [illegalReason]

/-- The reason is a reserved bit exactly when some row has the word's opcode (R51 (b)). -/
theorem illegalReason_eq_reservedBit_iff {w : Word} :
    illegalReason w = .reservedBit ↔ ∃ r ∈ opcodeTable, fieldOp w = fieldOp r.value := by
  simp [illegalReason]

theorem opcodes_nodup : (opcodeTable.map fun r => fieldOp r.value).Nodup := by
  rw [List.Nodup, List.pairwise_map]
  exact opcodes_differ

/-- Two rows with one opcode are the same row. -/
theorem eq_of_fieldOp_eq {r r' : Row} (hr : r ∈ opcodeTable) (hr' : r' ∈ opcodeTable)
    (h : fieldOp r.value = fieldOp r'.value) : r = r' :=
  List.inj_on_of_nodup_map opcodes_nodup hr hr' h

/-- A word that a row matches has the row's opcode. -/
theorem fieldOp_of_match {w : Word} {r : Row} (hr : r ∈ opcodeTable) (h : w &&& r.mask = r.value) :
    fieldOp w = fieldOp r.value :=
  fieldOp_of_rowMatches hr (by simpa [rowMatches] using h)

theorem decode_eq_undefinedOpcode_iff {w : Word} :
    decode w = .illegal .undefinedOpcode ↔ ∀ r ∈ opcodeTable, fieldOp w ≠ fieldOp r.value := by
  rw [decode_eq_illegal_iff, eq_comm, illegalReason_eq_undefinedOpcode_iff, and_iff_right_iff_imp]
  exact fun h r hr hm => h r hr (fieldOp_of_match hr hm)

theorem decode_eq_reservedBit_iff {w : Word} :
    decode w = .illegal .reservedBit ↔ ∃ r ∈ opcodeTable, fieldOp w = fieldOp r.value ∧ w &&& r.mask ≠ r.value := by
  rw [decode_eq_illegal_iff, eq_comm, illegalReason_eq_reservedBit_iff]
  constructor
  · rintro ⟨hno, r, hr, ho⟩
    exact ⟨r, hr, ho, hno r hr⟩
  · rintro ⟨r, hr, ho, hne⟩
    refine ⟨fun r' hr' hm => hne ?_, r, hr, ho⟩
    rwa [eq_of_fieldOp_eq hr hr' (ho.symm.trans (fieldOp_of_match hr' hm))]

/-- The opcodes of no row are the three ranges of R51. -/
theorem undefinedOpcode_iff (op : Byte) :
    (∀ r ∈ opcodeTable, op ≠ fieldOp r.value) ↔
      (0x06 ≤ op.toNat ∧ op.toNat ≤ 0x0F) ∨ (0x1B ≤ op.toNat ∧ op.toNat ≤ 0x1F) ∨ 0x23 ≤ op.toNat := by
  revert op; decide

end Sys2Proof
end

section
/-! PROOFS. The statements about the encoding: the round trip, the opcode map, illegal words, and the two
pseudo-instructions that absorb (spec/30_encoding.md R46 to R55). -/

namespace Sys2Proof.Machine

/-! ## Absorbing a string -/

/-- FINAL takes effect after any message (R124). -/
theorem exec_final_of_absorbed {m : Bytes} {s : State} (h : Absorbed m s) : exec .final s = .next (finalize s) :=
  exec_of_effect (i := .final) (by simp [h.accepting]) (by rw [h.accepting]; rfl)

/-- ABSORB of each byte of a string extends the message by the string. -/
theorem execAll_absorb (bs : Bytes) {m : Bytes} {s : State} (h : Absorbed m s) :
    ∃ t, execAll (bs.map .absorb) s = .next t ∧ Absorbed (m ++ bs) t ∧ t.var = s.var := by
  induction bs generalizing m s with
  | nil => exact ⟨s, rfl, by rwa [List.append_nil], rfl⟩
  | cons b bs ih =>
    obtain ⟨t, hb, ht, htv⟩ := absorbExtendsTheMessage m b s h
    obtain ⟨u, hbs, hu, huv⟩ := ih ht
    refine ⟨u, ?_, by rwa [List.append_cons], huv.trans htv⟩
    simp only [List.map_cons, execAll, hb, hbs]

/-! ## The statements -/

/-- Settles O1: the word of a well-formed command decodes to it. -/
theorem commandWordsRoundTrip : Obligations.CommandWordsRoundTrip :=
  fun _ h => decode_eq_command_iff_encode.2 ⟨h, rfl⟩

/-- Settles O2: a word that decodes is the encoder's word. -/
theorem decodedWordsEncodeBack : Obligations.DecodedWordsEncodeBack := by
  intro w i h
  obtain ⟨hi, hw⟩ := decode_eq_command_iff_encode.1 h
  exact ⟨hi, hw.symm⟩

/-- Settles O3: a command is decoded by its own row, whose fields are the operands. -/
theorem decoderFollowsOpcodeMap : Obligations.DecoderFollowsOpcodeMap := by
  intro w
  refine ⟨?nop, ?init, ?reset, ?absorb, ?final, ?dget, ?wput, ?wget, ?addcx, ?addca, ?subb, ?shift, ?mixc, ?rndx,
    ?rnda, ?permx, ?perma, ?gfmul, ?gfinv, ?sbox, ?illegal⟩
  case illegal => simp only [decode_eq_illegal_iff, exists_and_left, exists_eq, and_true]
  all_goals intros; refine decode_eq_command_iff_row.trans ?_
  case nop | reset | final => exact and_iff_left rfl
  all_goals refine and_congr_right fun _ => ?_
  case addcx | addca | rndx | rnda | subb | shift | mixc | permx | perma =>
    rw [← fieldG_eq_iff]
    simp [Instr.row, Instr.rowNumber, opcodeTable, fieldZ, eq_comm]
  case sbox =>
    rw [← fieldK_eq_iff]
    simp [Instr.row, Instr.rowNumber, opcodeTable, fieldZ, eq_comm]
  all_goals simp [Instr.row, Instr.rowNumber, opcodeTable, fieldV, fieldY, fieldZ, eq_comm]

/-- Settles O5: the reason is read off the opcode, and a step that accepts an illegal word outside FAULT raises
ILLEGAL. -/
theorem illegalWordsFault : Obligations.IllegalWordsFault := by
  refine ⟨fun w => ?_, fun w => decode_eq_reservedBit_iff, fun s w why rest hh hd hs => ?_⟩
  · rw [decode_eq_undefinedOpcode_iff]
    exact undefinedOpcode_iff (fieldOp w)
  · rw [step_of_command hh]
    obtain ⟨hf, -⟩ | ⟨-, -, ha⟩ | ⟨-, i, hi, -⟩ := acceptWord_cases w { s with host := rest }
    · exact absurd hf hs
    · exact ha
    · cases hd.symm.trans hi

/-- Settles O49: INIT begins the empty message, each ABSORB extends it, FINAL digests it. -/
theorem hashComputesKupyna : Obligations.HashComputesKupyna := by
  intro v cur m s hs
  obtain ⟨t, hinit, ht, htv⟩ := initBeginsTheEmptyMessage v s hs
  obtain ⟨u, habs, hu, huv⟩ := execAll_absorb m ht
  refine ⟨finalize u, ?_, huv.trans htv, digested_finalize hu⟩
  calc execAll (expandPseudo cur (.hash v m)) s
      = execAll (m.map .absorb ++ [.final]) t := by simp only [expandPseudo, List.cons_append, execAll, hinit]
    _ = execAll [.final] u := by rw [execAll_append, habs]
    _ = .next (finalize u) := by simp only [execAll, exec_final_of_absorbed hu]

/-- Settles O50: the absorbs of `a ++ c` are those of `a` and then those of `c`. -/
theorem updateIgnoresChunking : Obligations.UpdateIgnoresChunking := by
  intro cur m a c s h
  obtain ⟨t, hst, ht, htv⟩ := execAll_absorb a h
  obtain ⟨u, htu, hu, huv⟩ := execAll_absorb c ht
  refine ⟨t, u, hst, ht, htv, htu, ?_, hu, huv.trans htv⟩
  calc execAll (expandPseudo cur (.update (a ++ c))) s
      = execAll (a.map .absorb ++ c.map .absorb) s := by simp only [expandPseudo, List.map_append]
    _ = .next u := by rw [execAll_append, hst]; exact htu

/-- Settles O4: each command word is the encoder's word of its command, and the two others match no row. -/
theorem sampleWordsDecode : Obligations.SampleWordsDecode :=
  ⟨commandWordsRoundTrip .nop rfl, commandWordsRoundTrip (.init .k256) rfl, commandWordsRoundTrip (.absorb 0xFF) rfl,
    commandWordsRoundTrip .final rfl, commandWordsRoundTrip (.dget 31) rfl, commandWordsRoundTrip (.wput 9 0x80) rfl,
    commandWordsRoundTrip (.wget 127) rfl, commandWordsRoundTrip (.rnda .g16 13) rfl,
    commandWordsRoundTrip (.permx .g8) rfl, commandWordsRoundTrip (.gfmul 0x02 0x80) rfl,
    commandWordsRoundTrip (.sbox 3 0xFF) rfl, by decide, by decide⟩

/-- Settles O7: each of the three inputs is the case of the step that executes nothing. -/
theorem nothingAcceptedNothingDone : Obligations.NothingAcceptedNothingDone :=
  fun s => ⟨fun h => by simp only [step, hostStep, h], fun rest h => by simp only [step, hostStep, h, takeInput],
    fun w rest h => by simp only [step, hostStep, h, takeInput]⟩

/-- Settles O55: the program is closed text, so the assembler is run on it. -/
theorem exampleLinesAssemble : Obligations.ExampleLinesAssemble := by
  unfold Obligations.ExampleLinesAssemble
  decide

end Sys2Proof.Machine
end

section
/-! PROOFS. The field of the GF unit (spec/40_gf_unit.md R60 to R62, R65): the product is linear in each operand, every
byte is a polynomial in x, and every byte but 0 is a power of x. -/

namespace Sys2Proof.Machine

/-! ## Multiplication by x -/

theorem ite_xor_eq (p q : Bool) (c : Byte) :
    (if (p ^^ q) = true then c else 0) = (if p = true then c else 0) ^^^ (if q = true then c else 0) := by
  cases p <;> cases q <;> simp

@[simp] theorem xtime_zero : xtime 0#8 = 0#8 := rfl

theorem xtime_xor (a b : Byte) : xtime (a ^^^ b) = xtime a ^^^ xtime b := by
  unfold xtime
  rw [BitVec.shiftLeft_xor_distrib, BitVec.getLsbD_xor, ite_xor_eq]
  ac_rfl

theorem eq_zero_of_xtime : ∀ a, xtime a = 0 → a = 0 := by decide

/-- `x^n` as a byte. -/
def xPower (n : Nat) : Byte := xtime^[n] 1

@[simp] theorem xPower_zero : xPower 0 = 1#8 := rfl

theorem xPower_succ (n : Nat) : xPower (n + 1) = xtime (xPower n) := Function.iterate_succ_apply' xtime n 1

/-! ## The product as a sum -/

/-- The exclusive-or of `f k` over the `k` of a list that satisfy `p`. -/
def xorOver (l : List Nat) (p : Nat → Bool) (f : Nat → Byte) : Byte := ((l.filter p).map f).foldr (· ^^^ ·) 0

@[simp] theorem xorOver_nil (p : Nat → Bool) (f : Nat → Byte) : xorOver [] p f = 0#8 := rfl

@[simp] theorem xorOver_cons (k : Nat) (l : List Nat) (p : Nat → Bool) (f : Nat → Byte) :
    xorOver (k :: l) p f = (if p k = true then f k else 0) ^^^ xorOver l p f := by
  cases h : p k <;> simp [xorOver, h]

theorem xorOver_append (l l' : List Nat) (p : Nat → Bool) (f : Nat → Byte) :
    xorOver (l ++ l') p f = xorOver l p f ^^^ xorOver l' p f := by
  induction l with
  | nil => simp
  | cons k l ih => rw [List.cons_append, xorOver_cons, xorOver_cons, ih, BitVec.xor_assoc]

theorem xorOver_xor (l : List Nat) (p q : Nat → Bool) (f : Nat → Byte) :
    xorOver l (fun k => p k ^^ q k) f = xorOver l p f ^^^ xorOver l q f := by
  induction l with
  | nil => simp
  | cons k l ih =>
    simp only [xorOver_cons, ih, ite_xor_eq]
    ac_rfl

theorem xorOver_induction {P : Byte → Prop} (zero : P 0) (xor : ∀ a b, P a → P b → P (a ^^^ b)) {l : List Nat}
    (p : Nat → Bool) {f : Nat → Byte} (term : ∀ k ∈ l, P (f k)) : P (xorOver l p f) := by
  induction l with
  | nil => exact zero
  | cons k l ih =>
    obtain ⟨hk, hl⟩ := List.forall_mem_cons.1 term
    rw [xorOver_cons]
    refine xor _ _ ?_ (ih hl)
    split
    · exact hk
    · exact zero

/-- The loop of R61 after `n` turns: the sum so far, and `a` multiplied by x `n` times. -/
theorem foldl_gfmulTurn (a b : Byte) (n : Nat) :
    (List.range n).foldl (gfmulTurn b) (0, a) =
      (xorOver (List.range n) b.getLsbD (fun k => xtime^[k] a), xtime^[n] a) := by
  induction n with
  | zero => rfl
  | succ n ih =>
    rw [List.range_succ, List.foldl_append, ih, xorOver_append, Function.iterate_succ_apply']
    cases h : b.getLsbD n <;> simp [gfmulTurn, h]

/-- The closed form of R61. -/
theorem gfmul_eq_xorOver (a b : Byte) : gfmul a b = xorOver (List.range 8) b.getLsbD (fun k => xtime^[k] a) := by
  rw [gfmul, foldl_gfmulTurn]

theorem gfmul_xor_right (a b d : Byte) : gfmul a (b ^^^ d) = gfmul a b ^^^ gfmul a d := by
  simp only [gfmul_eq_xorOver, ← xorOver_xor, ← BitVec.getLsbD_xor]

@[simp] theorem gfmul_zero_right (a : Byte) : gfmul a 0#8 = 0#8 := by
  simpa using gfmul_xor_right a 0 0

/-- Below 8, `x^k` is the byte whose only bit is bit `k`. -/
theorem filter_getLsbD_xPower : ∀ k < 8, (List.range 8).filter (xPower k).getLsbD = [k] := by decide

theorem gfmul_xPower_of_lt (a : Byte) {k : Nat} (hk : k < 8) : gfmul a (xPower k) = xtime^[k] a := by
  rw [gfmul_eq_xorOver, xorOver, filter_getLsbD_xPower k hk]
  simp

@[simp] theorem gfmul_one_right (a : Byte) : gfmul a 1#8 = a := gfmul_xPower_of_lt a (k := 0) (by omega)

@[simp] theorem gfmul_one_left : ∀ a, gfmul 1#8 a = a := by decide

/-! ## Every byte is a polynomial in x -/

/-- What holds of 0 and of the powers of x below 8 and is kept by sums holds of every byte: a byte is `1 ⊗ a`. -/
theorem byte_induction_xPower {P : Byte → Prop} (zero : P 0) (xor : ∀ a b, P a → P b → P (a ^^^ b))
    (power : ∀ k < 8, P (xPower k)) (a : Byte) : P a := by
  rw [← gfmul_one_left a, gfmul_eq_xorOver]
  exact xorOver_induction zero xor _ fun k hk => power k (List.mem_range.1 hk)

/-- The reduction of R60: `x^8 = x^4 + x^3 + x^2 + 1`. -/
theorem xtime_iterate_eight : ∀ a, xtime^[8] a = gfmul a (xPower 8) := by decide

theorem gfmul_xtime_right (a b : Byte) : gfmul a (xtime b) = xtime (gfmul a b) := by
  induction b using byte_induction_xPower with
  | zero => simp
  | xor b d hb hd => rw [xtime_xor, gfmul_xor_right, gfmul_xor_right, xtime_xor, hb, hd]
  | power k hk =>
    rw [gfmul_xPower_of_lt a hk, ← xPower_succ, ← Function.iterate_succ_apply' xtime]
    obtain hk | rfl : k + 1 < 8 ∨ k = 7 := by omega
    · exact gfmul_xPower_of_lt a hk
    · exact (xtime_iterate_eight a).symm

/-- What holds of 0 and 1 and is kept by sums and by multiplication by x holds of every byte. -/
theorem byte_induction {P : Byte → Prop} (zero : P 0) (one : P 1) (xor : ∀ a b, P a → P b → P (a ^^^ b))
    (mulX : ∀ a, P a → P (xtime a)) (a : Byte) : P a := by
  refine byte_induction_xPower zero xor (fun k _ => ?_) a
  induction k with
  | zero => exact one
  | succ k ih => rw [xPower_succ]; exact mulX _ (ih (by omega))

/-! ## The laws of the product -/

theorem gfmul_xor_left (a b d : Byte) : gfmul (a ^^^ b) d = gfmul a d ^^^ gfmul b d := by
  induction d using byte_induction with
  | zero => simp
  | one => simp
  | xor d e hd he =>
    simp only [gfmul_xor_right, hd, he]
    ac_rfl
  | mulX d hd => simp only [gfmul_xtime_right, hd, xtime_xor]

@[simp] theorem gfmul_zero_left (b : Byte) : gfmul 0#8 b = 0#8 := by
  simpa using gfmul_xor_left 0 0 b

theorem gfmul_xtime_left (a b : Byte) : gfmul (xtime a) b = xtime (gfmul a b) := by
  induction b using byte_induction with
  | zero => simp
  | one => simp
  | xor b d hb hd => rw [gfmul_xor_right, gfmul_xor_right, xtime_xor, hb, hd]
  | mulX b hb => rw [gfmul_xtime_right, gfmul_xtime_right, hb]

theorem gfmul_comm (a b : Byte) : gfmul a b = gfmul b a := by
  induction b using byte_induction with
  | zero => simp
  | one => simp
  | xor b d hb hd => rw [gfmul_xor_right, gfmul_xor_left, hb, hd]
  | mulX b hb => rw [gfmul_xtime_right, gfmul_xtime_left, hb]

theorem gfmul_assoc (a b d : Byte) : gfmul a (gfmul b d) = gfmul (gfmul a b) d := by
  induction d using byte_induction with
  | zero => simp
  | one => simp
  | xor d e hd he => rw [gfmul_xor_right, gfmul_xor_right, gfmul_xor_right, hd, he]
  | mulX d hd => rw [gfmul_xtime_right, gfmul_xtime_right, gfmul_xtime_right, hd]

/-! ## The powers of x -/

/-- The element 02 is x. -/
theorem gfmul_two : gfmul 2 = xtime := by
  funext a
  exact (gfmul_xtime_left 1 a).trans (congrArg xtime (gfmul_one_left a))

theorem gfmul_xPower (m n : Nat) : gfmul (xPower m) (xPower n) = xPower (m + n) := by
  induction n with
  | zero => simp
  | succ n ih => rw [xPower_succ, gfmul_xtime_right, ih, ← Nat.add_assoc, xPower_succ]

theorem xPower_17 : xPower 17 = 0x98 := by decide

theorem xPower_51 : xPower 51 = 0x0A := by
  rw [← gfmul_xPower 34 17, ← gfmul_xPower 17 17, xPower_17]
  decide

theorem xPower_85 : xPower 85 = 0xD6 := by
  rw [← gfmul_xPower 51 34, ← gfmul_xPower 17 17, xPower_51, xPower_17]
  decide

theorem xPower_255 : xPower 255 = 1 := by
  rw [← gfmul_xPower 170 85, ← gfmul_xPower 85 85, xPower_85]
  decide

theorem xPower_mul_255 (n : Nat) : xPower (n * 255) = 1 := by
  induction n with
  | zero => rfl
  | succ n ih => rw [Nat.succ_mul, ← gfmul_xPower, ih, xPower_255]; rfl

/-- A proper divisor of 255 = 3 · 5 · 17 divides one of the three maximal ones. -/
theorem dvd_of_proper_dvd_255 {d : Nat} (hd : d ∣ 255) (hne : d ≠ 255) : d ∣ 15 ∨ d ∣ 51 ∨ d ∣ 85 := by
  have hall : ∀ d ∈ Nat.divisors 255, d ≠ 255 → d ∣ 15 ∨ d ∣ 51 ∨ d ∣ 85 := by decide
  exact hall d (Nat.mem_divisors.2 ⟨hd, by omega⟩) hne

/-- The order of 02: it divides 255, and no maximal proper divisor of 255 is a period. -/
theorem minimalPeriod_xtime : Function.minimalPeriod xtime 1 = 255 := by
  have hdvd : Function.minimalPeriod xtime 1 ∣ 255 := Function.IsPeriodicPt.minimalPeriod_dvd xPower_255
  by_contra hne
  have hperiod {m : Nat} (h : Function.minimalPeriod xtime 1 ∣ m) : xPower m = 1 :=
    (Function.isPeriodicPt_minimalPeriod xtime 1).trans_dvd h
  obtain h | h | h := dvd_of_proper_dvd_255 hdvd hne
  · exact absurd (hperiod h) (by decide)
  · exact absurd (xPower_51.symm.trans (hperiod h)) (by decide)
  · exact absurd (xPower_85.symm.trans (hperiod h)) (by decide)

theorem xPower_ne_one {n : Nat} (hpos : 0 < n) (hlt : n < 255) : xPower n ≠ 1 :=
  Function.not_isPeriodicPt_of_pos_of_lt_minimalPeriod hpos.ne' (minimalPeriod_xtime.symm ▸ hlt)

theorem xPower_injOn : Set.InjOn xPower (Finset.range 255) := by
  have h := Function.iterate_injOn_Iio_minimalPeriod (f := xtime) (x := 1)
  rw [minimalPeriod_xtime] at h
  rw [Finset.coe_range]
  exact h

theorem xPower_ne_zero (n : Nat) : xPower n ≠ 0 := by
  induction n with
  | zero => decide
  | succ n ih => rw [xPower_succ]; exact fun h => ih (eq_zero_of_xtime _ h)

/-- Every byte but 0 is a power of x: the 255 powers below `x^255` differ, and there are 255 such bytes. -/
theorem exists_eq_xPower {a : Byte} (ha : a ≠ 0) : ∃ n, a = xPower n := by
  have hmaps : Set.MapsTo (fun n => (xPower n).toNat) (Finset.range 255) (Finset.Ioo 0 256) := fun n _ => by
    have := (xPower n).isLt
    have : (xPower n).toNat ≠ 0 := fun h => xPower_ne_zero n (BitVec.eq_of_toNat_eq h)
    simp only [Finset.coe_Ioo, Set.mem_Ioo]
    omega
  have hinj : Set.InjOn (fun n => (xPower n).toNat) (Finset.range 255) :=
    fun m hm n hn h => xPower_injOn hm hn (BitVec.eq_of_toNat_eq h)
  have ha' : a.toNat ∈ Finset.Ioo 0 256 := by
    have : a.toNat ≠ 0 := fun h => ha (BitVec.eq_of_toNat_eq h)
    rw [Finset.mem_Ioo]
    omega
  obtain ⟨n, -, hn⟩ := Finset.surjOn_of_injOn_of_card_le _ hmaps hinj (by simp) ha'
  exact ⟨n, BitVec.eq_of_toNat_eq hn.symm⟩

/-! ## The inverse -/

theorem gfsquares_xPower (n k : Nat) : gfsquares (xPower n) k = xPower (n * 2 ^ k) := by
  induction k with
  | zero => rw [gfsquares, Nat.pow_zero, Nat.mul_one]
  | succ k ih => rw [gfsquares, ih, gfmul_xPower, Nat.pow_succ, ← Nat.mul_assoc, Nat.mul_two]

theorem gfinv_xPower (n : Nat) : gfinv (xPower n) = xPower (n * 254) := by
  simp only [gfinv, List.foldl_cons, List.foldl_nil, gfsquares_xPower, gfmul_xPower, ← Nat.mul_add,
    Nat.reducePow, Nat.reduceAdd]

@[simp] theorem gfinv_zero : gfinv 0#8 = 0#8 := by decide

/-- `a^255 = 1` for every byte `a` but 0. -/
theorem gfmul_gfinv {a : Byte} (ha : a ≠ 0) : gfmul a (gfinv a) = 1 := by
  obtain ⟨n, rfl⟩ := exists_eq_xPower ha
  rw [gfinv_xPower, gfmul_xPower, Nat.add_comm, ← Nat.mul_succ, xPower_mul_255]

theorem gfmul_left_cancel {a b d : Byte} (ha : a ≠ 0) (h : gfmul a b = gfmul a d) : b = d := by
  have undo (e : Byte) : gfmul (gfinv a) (gfmul a e) = e := by
    rw [gfmul_assoc, gfmul_comm (gfinv a), gfmul_gfinv ha]
    exact gfmul_one_left e
  rw [← undo b, h, undo d]

theorem eq_gfinv_of_gfmul_eq_one {a u : Byte} (h : gfmul a u = 1) : u = gfinv a := by
  have ha : a ≠ 0 := by
    rintro rfl
    exact absurd ((gfmul_zero_left u).symm.trans h) (by decide)
  exact gfmul_left_cancel ha (h.trans (gfmul_gfinv ha).symm)

theorem eq_zero_or_eq_zero_of_gfmul {a b : Byte} (h : gfmul a b = 0) : a = 0 ∨ b = 0 := by
  by_cases ha : a = 0
  · exact .inl ha
  · exact .inr (gfmul_left_cancel ha (h.trans (gfmul_zero_right a).symm))

theorem gfinv_involutive : Function.Involutive gfinv := by
  intro a
  by_cases ha : a = 0
  · subst ha
    simp
  · exact (eq_gfinv_of_gfmul_eq_one ((gfmul_comm _ a).trans (gfmul_gfinv ha))).symm

end Sys2Proof.Machine
end

section
/-! PROOFS. The statements about the GF unit: its two commands and the laws of its field (spec/40_gf_unit.md R63 to
R65). -/

namespace Sys2Proof.Machine

theorem exec_gfmul {s : State} (a b : Byte) (hs : s.st ≠ .fault) :
    exec (.gfmul a b) s = .next { s with r := gfmul a b } := exec_of_effect hs (by simp [faultCause])

theorem exec_gfinv {s : State} (a : Byte) (hs : s.st ≠ .fault) :
    exec (.gfinv a) s = .next { s with r := gfinv a } := exec_of_effect hs (by simp [faultCause])

/-- Settles O36: the loop of the product adds the terms of its closed form one by one. -/
theorem gfmulMultiplies : Obligations.GfmulMultiplies := by
  intro a b
  refine ⟨fun w => decode_eq_command_iff_encode.trans (and_iff_right rfl), fun s => ⟨exec_of_fault _, fun hs => ?_⟩⟩
  rw [exec_gfmul a b hs, gfmul_eq_xorOver]
  rfl

/-- Settles O37: the inverse is unique because a factor other than 0 cancels. -/
theorem gfinvInverts : Obligations.GfinvInverts := by
  intro a
  refine ⟨fun w => decode_eq_command_iff_encode.trans (and_iff_right rfl), fun s => ⟨exec_of_fault _, fun hs => ?_⟩⟩
  refine ⟨gfinv a, exec_gfinv a hs, ?_, fun ha => ⟨gfmul_gfinv ha, fun u => eq_gfinv_of_gfmul_eq_one⟩⟩
  rintro rfl
  exact gfinv_zero

/-- Settles O40: the laws of the product and the inverse; 02 is x, so its powers are those of x. -/
theorem fieldLawsHold : Obligations.FieldLawsHold := by
  refine ⟨gfmul_comm, gfmul_assoc, gfmul_xor_right, gfmul_one_right, gfmul_zero_right,
    fun _ _ => eq_zero_or_eq_zero_of_gfmul, fun a ha => ⟨gfmul_gfinv ha, gfinv_involutive a⟩,
    gfinv_involutive.bijective, gfinv_zero, (eq_gfinv_of_gfmul_eq_one (gfmul_one_left 1)).symm, ?_⟩
  rw [gfmul_two]
  exact ⟨xPower_255, fun _ => xPower_ne_one, by decide⟩

end Sys2Proof.Machine
end

section
/-! PROOFS. The constant tables and the commands that read them: the values of S0 to S3 and the command SBOX, the IV and
the commands INIT and RESET (spec/41_constant_tables.md R70 to R75, R78; spec/46_hasher_commands.md R121, R122). -/

namespace Sys2Proof.Machine

/-! ## The bytes of a fresh hasher -/

theorem getD_ivBytes_zero (g : Geom) (d : Byte) : (ivBytes g).getD 0 d = BitVec.ofNat 8 (blockBytes g) := rfl

theorem getD_ivBytes_of_pos {g : Geom} {n : Nat} (d : Byte) (hpos : 0 < n) (hn : n < blockBytes g) :
    (ivBytes g).getD n d = 0 := by
  obtain ⟨m, rfl⟩ := Nat.exists_eq_add_one.2 hpos
  rw [ivBytes, List.getD_cons_succ]
  exact List.getD_replicate _ (by omega)

/-- Every byte of H in a fresh hasher: the IV in the first NB bytes, the old bytes from there on (R78, R27). -/
theorem byteAt_h_startHasher (v : Variant) (s : State) :
    byteAt (startHasher v s).h 0 = BitVec.ofNat 8 (variantBlock v) ∧
    (∀ n, 0 < n → n < variantBlock v → byteAt (startHasher v s).h n = 0) ∧
    (∀ n, variantBlock v ≤ n → n < 128 → byteAt (startHasher v s).h n = byteAt s.h n) := by
  rw [startHasher_h]
  refine ⟨?first, fun n hpos hn => ?zeros, fun n hge hlt => ?dead⟩
  case first => rw [byteAt_writeFirst _ _ (by omega), getD_ivBytes_zero]; rfl
  case zeros =>
    rw [byteAt_writeFirst _ _ (hn.trans_le (variantBlock_le v)), getD_ivBytes_of_pos _ hpos hn]
  case dead => exact byteAt_writeFirst_of_ge _ _ hlt ((length_ivBytes _).trans_le hge)

/-! ## The values of a table -/

/-- The values of `f` at the `2 ^ d` bytes from `a * 2 ^ d` on, as a set of bit positions. The two halves are joined, so
that evaluating it for a whole table recurses only `d` deep. -/
def valueSet (f : Byte → Byte) : Nat → Nat → Nat
  | 0, a => 2 ^ (f (BitVec.ofNat 8 a)).toNat
  | d + 1, a => valueSet f d (2 * a) ||| valueSet f d (2 * a + 1)

theorem exists_eq_of_testBit_valueSet {f : Byte → Byte} {b : Byte} {d a : Nat}
    (h : (valueSet f d a).testBit b.toNat = true) : ∃ x, f x = b := by
  induction d generalizing a with
  | zero =>
    rw [valueSet, Nat.testBit_two_pow, decide_eq_true_iff] at h
    exact ⟨_, BitVec.eq_of_toNat_eq h⟩
  | succ d ih =>
    rw [valueSet, Nat.testBit_or, Bool.or_eq_true] at h
    exact h.elim ih ih

/-- A function on the bytes whose 256 values fill all 256 bit positions takes every byte as a value, each once. -/
theorem bijective_of_valueSet_full {f : Byte → Byte} (h : valueSet f 8 0 = 2 ^ 256 - 1) : Function.Bijective f := by
  have hsurj : Function.Surjective f := fun b => exists_eq_of_testBit_valueSet (d := 8) (a := 0) <| by
    rw [h, Nat.testBit_two_pow_sub_one]
    exact decide_eq_true b.isLt
  exact Finite.surjective_iff_bijective.1 hsurj

theorem valueSet_sboxEntry_full : ∀ k, valueSet (sboxEntry k) 8 0 = 2 ^ 256 - 1 := by decide

theorem sboxEntry_ne_self : ∀ k a, sboxEntry k a ≠ a := by decide

/-! ## The commands -/

theorem exec_init {s : State} (v : Variant) (hs : s.st ≠ .fault) : exec (.init v) s = .next (startHasher v s) :=
  exec_of_effect hs rfl

theorem exec_reset {s : State} (hs : s.st = .accepting ∨ s.st = .finalized) :
    exec .reset s = .next (startHasher s.var s) := by
  obtain hs | hs := hs <;> exact exec_of_effect (by simp [hs]) (by simp [faultCause, hs])

theorem exec_sbox {s : State} (k : Fin 4) (a : Byte) (hs : s.st ≠ .fault) :
    exec (.sbox k a) s = .next { s with r := sboxEntry k a } := exec_of_effect hs rfl

/-! ## The statements -/

/-- Settles O17: outside FAULT the answer is the fresh hasher, whose bytes of H are the IV's and the old ones. -/
theorem initStartsAHasher : Obligations.InitStartsAHasher := by
  intro v
  refine ⟨fun w => decode_eq_command_iff_encode.trans (and_iff_right rfl), fun s => ⟨exec_of_fault _, fun hs => ?_⟩⟩
  exact ⟨startHasher v s, exec_init v hs, rfl, byteAt_h_startHasher v s⟩

/-- Settles O18: RESET faults in IDLE, and where it is legal it answers the fresh hasher of the current variant, as
INIT does. -/
theorem resetRestartsTheHasher : Obligations.ResetRestartsTheHasher := by
  refine ⟨fun w => decode_eq_command_iff_encode.trans (and_iff_right rfl),
    fun s => ⟨exec_of_fault _, fun hs => exec_of_cause (by rw [hs]; rfl), fun hs => ?_⟩⟩
  have hrun : s.st ≠ .fault := by
    intro hf
    simp [hf] at hs
  exact ⟨(exec_reset hs).trans (exec_init s.var hrun).symm,
    startHasher s.var s, exec_reset hs, rfl, byteAt_h_startHasher s.var s⟩

/-- Settles O38: SBOX never faults, and its effect is to write the entry to R. -/
theorem sboxLooksUp : Obligations.SboxLooksUp := fun k a =>
  ⟨fun _ => decode_eq_command_iff_encode.trans (and_iff_right rfl), fun _ => ⟨exec_of_fault _, exec_sbox k a⟩⟩

/-- Settles O39: each table takes all 256 values, so it takes each of them once. -/
theorem tablesArePermutations : Obligations.TablesArePermutations :=
  ⟨by decide, by decide, by decide, by decide,
    fun k => ⟨sboxEntry_ne_self k, bijective_of_valueSet_full (valueSet_sboxEntry_full k)⟩⟩

end Sys2Proof.Machine
end

section
/-! PROOFS. State matrices cell by cell, and the commands that apply an operation on matrices to W
(spec/20_memory.md R31, spec/42_round_steps.md R83 to R93). -/

namespace Sys2Proof.Machine

/-! ## State matrices -/

theorem eight_le_cols (g : Geom) : 8 ≤ cols g := by cases g <;> decide
theorem cols_le (g : Geom) : cols g ≤ 16 := by cases g <;> decide

/-- The byte in row `i` of column `j` lies within the block. -/
theorem cellIndex_lt {g : Geom} {i j : Nat} (hi : i < 8) (hj : j < cols g) : 8 * j + i < blockBytes g := by
  unfold blockBytes
  omega

/-- Two blocks with the same cells are equal (R31). -/
theorem ext_cell {g : Geom} {m n : Bytes} (hm : m.length = blockBytes g) (hn : n.length = blockBytes g)
    (h : ∀ i j, i < 8 → j < cols g → cell m i j = cell n i j) : m = n := by
  refine List.ext_getElem (hm.trans hn.symm) fun k hk hk' => ?_
  have hc := h (k % 8) (k / 8) (Nat.mod_lt _ (by omega)) (by rw [hm, blockBytes] at hk; omega)
  rwa [cell, cell, Nat.div_add_mod, List.getD_eq_getElem _ _ hk, List.getD_eq_getElem _ _ hk'] at hc

/-- A block is the matrix of its cells (R31). -/
theorem matrix_cell {g : Geom} {m : Bytes} (hm : m.length = blockBytes g) : matrix g (cell m) = m :=
  ext_cell (length_matrix ..) hm fun _ _ => cell_matrix g (cell m)

theorem xorBytes_self (m : Bytes) : xorBytes m m = List.replicate m.length 0 := by
  simp [xorBytes, List.zipWith_self]

theorem cell_xorBytes {m n : Bytes} (h : m.length = n.length) (i j : Nat) :
    cell (xorBytes m n) i j = cell m i j ^^^ cell n i j := by
  unfold cell xorBytes
  by_cases hk : 8 * j + i < m.length
  · rw [List.getD_eq_getElem _ _ (by simp; omega), List.getD_eq_getElem _ _ hk, List.getD_eq_getElem _ _ (h ▸ hk),
      List.getElem_zipWith]
  · rw [List.getD_eq_default _ _ (by simp; omega), List.getD_eq_default _ _ (by omega),
      List.getD_eq_default _ _ (by omega)]
    rfl

/-! ## The bytes of W -/

theorem byteAt_writeFirst_of_lt {k : Nat} (v : Vector Byte k) {x : Bytes} {n : Nat} (h : n < k) (hx : n < x.length)
    (d : Byte) : byteAt (writeFirst v x) n = x.getD n d := by
  rw [byteAt_writeFirst _ _ h, List.getD_eq_getElem _ _ hx, List.getD_eq_getElem _ _ hx]

theorem firstBytes_congr {k n : Nat} {v v' : Vector Byte k} (hn : n ≤ k) (h : ∀ i, i < n → byteAt v i = byteAt v' i) :
    firstBytes v n = firstBytes v' n := by
  refine List.ext_getElem (by simp) fun i hi _ => ?_
  have hin : i < n := by simp at hi; omega
  have hik : i < k := by omega
  have hb := h i hin
  rw [byteAt_of_lt _ hik, byteAt_of_lt _ hik] at hb
  simpa [firstBytes] using hb

/-- Writing back what was read changes nothing. -/
theorem writeFirst_firstBytes {k : Nat} (v : Vector Byte k) (n : Nat) : writeFirst v (firstBytes v n) = v := by
  refine Vector.ext fun i hi => ?_
  rw [getElem_writeFirst]
  by_cases hx : i < (firstBytes v n).length
  · rw [List.getD_eq_getElem _ _ hx]
    simp [firstBytes]
  · exact List.getD_eq_default _ _ (by omega)

/-- Eight bytes of an array from `n` on, given one by one. -/
theorem take_drop_eq_of_byteAt {k n : Nat} {v : Vector Byte k} {x : Bytes} (hn : n + 8 ≤ k) (hx : x.length = 8)
    (h : ∀ i, i < 8 → byteAt v (n + i) = x.getD i 0) : (v.toList.drop n).take 8 = x := by
  refine List.ext_getElem (by simp; omega) fun i _ hi => ?_
  have hb := h i (by omega)
  rw [byteAt_of_lt _ (by omega), List.getD_eq_getElem _ _ hi] at hb
  simpa using hb

/-! ## Commands that apply an operation to W -/

/-- The command `i` applies the operation `f`, from blocks to blocks, to the working matrix (R93). -/
structure ActsOnMatrix (i : Instr) (g : Geom) (f : Bytes → Bytes) : Prop where
  length (m : Bytes) : (f m).length = blockBytes g
  exec_eq {s : State} (hs : s.st ≠ .fault) : exec i s = .next (applyToW g f s)

theorem actsOnMatrix_addcx (g : Geom) (nu : Byte) : ActsOnMatrix (.addcx g nu) g fun m => addConstX g m nu :=
  ⟨fun m => length_addConstX g m nu, fun hs => exec_of_effect hs rfl⟩
theorem actsOnMatrix_addca (g : Geom) (nu : Byte) : ActsOnMatrix (.addca g nu) g fun m => addConstA g m nu :=
  ⟨fun m => length_addConstA g m nu, fun hs => exec_of_effect hs rfl⟩
theorem actsOnMatrix_subb (g : Geom) : ActsOnMatrix (.subb g) g (subBytes g) :=
  ⟨length_subBytes g, fun hs => exec_of_effect hs rfl⟩
theorem actsOnMatrix_shift (g : Geom) : ActsOnMatrix (.shift g) g (shiftBytes g) :=
  ⟨length_shiftBytes g, fun hs => exec_of_effect hs rfl⟩
theorem actsOnMatrix_mixc (g : Geom) : ActsOnMatrix (.mixc g) g (mixColumns g) :=
  ⟨length_mixColumns g, fun hs => exec_of_effect hs rfl⟩
theorem actsOnMatrix_rndx (g : Geom) (nu : Byte) : ActsOnMatrix (.rndx g nu) g fun m => roundX g m nu :=
  ⟨fun m => length_roundX g m nu, fun hs => exec_of_effect hs rfl⟩
theorem actsOnMatrix_rnda (g : Geom) (nu : Byte) : ActsOnMatrix (.rnda g nu) g fun m => roundA g m nu :=
  ⟨fun m => length_roundA g m nu, fun hs => exec_of_effect hs rfl⟩
theorem actsOnMatrix_permx (g : Geom) : ActsOnMatrix (.permx g) g (permX g) :=
  ⟨length_permX g, fun hs => exec_of_effect hs rfl⟩
theorem actsOnMatrix_perma (g : Geom) : ActsOnMatrix (.perma g) g (permA g) :=
  ⟨length_permA g, fun hs => exec_of_effect hs rfl⟩

theorem applyToW_eq_setW (g : Geom) (f : Bytes → Bytes) (s : State) :
    applyToW g f s = { s with w := (applyToW g f s).w } := by
  unfold applyToW
  rfl

theorem applyToW_eq_self {g : Geom} {f : Bytes → Bytes} {s : State}
    (h : f (firstBytes s.w (blockBytes g)) = firstBytes s.w (blockBytes g)) : applyToW g f s = s := by
  rw [applyToW_eq_setW, applyToW_w, h, writeFirst_firstBytes]

/-- A byte of W below 8c after an operation is the byte of its result. -/
theorem byteAt_applyToW_of_lt {g : Geom} {f : Bytes → Bytes} (hf : ∀ m, (f m).length = blockBytes g) (s : State)
    {n : Nat} (hn : n < blockBytes g) :
    byteAt (applyToW g f s).w n = (f (firstBytes s.w (blockBytes g))).getD n 0 := by
  rw [applyToW_w]
  exact byteAt_writeFirst_of_lt _ (hn.trans_le (blockBytes_le g)) (by rwa [hf]) 0

/-- A byte of W from 8c on is not written (R93). -/
theorem byteAt_applyToW_of_ge {g : Geom} {f : Bytes → Bytes} (hf : ∀ m, (f m).length = blockBytes g) (s : State)
    {n : Nat} (hn : blockBytes g ≤ n) (hn' : n < 128) : byteAt (applyToW g f s).w n = byteAt s.w n := by
  rw [applyToW_w]
  exact byteAt_writeFirst_of_ge _ _ hn' (by rwa [hf])

theorem execAll_of_fault {s : State} (hs : s.st = .fault) (is : List Instr) : execAll is s = .next s := by
  induction is with
  | nil => rfl
  | cons i is ih => simpa only [execAll, exec_of_fault i hs] using ih

/-- Iterating an operation from blocks to blocks gives blocks. -/
theorem length_iterate {g : Geom} {f : Bytes → Bytes} (hf : ∀ m, (f m).length = blockBytes g) (k : Nat) {m : Bytes}
    (hm : m.length = blockBytes g) : (f^[k] m).length = blockBytes g := by
  cases k with
  | zero => exact hm
  | succ k => rw [Function.iterate_succ_apply']; exact hf _

/-- Repeating a command is iterating its operation. -/
theorem ActsOnMatrix.execAll_replicate {i : Instr} {g : Geom} {f : Bytes → Bytes} (h : ActsOnMatrix i g f) (k : Nat)
    {s : State} (hs : s.st ≠ .fault) : execAll (List.replicate k i) s = .next (applyToW g f^[k] s) := by
  induction k generalizing s with
  | zero => exact congrArg _ (applyToW_eq_self rfl).symm
  | succ k ih =>
    rw [List.replicate_succ, execAll, h.exec_eq hs]
    exact (ih (by simpa using hs)).trans
      (congrArg _ (applyToW_applyToW g f f^[k] s (h.length _) fun _ => length_iterate h.length k))

/-- A command whose operation has order `k` restores the state when repeated `k` times, in FAULT too. -/
theorem ActsOnMatrix.execAll_replicate_eq_self {i : Instr} {g : Geom} {f : Bytes → Bytes} (h : ActsOnMatrix i g f)
    {k : Nat} (hk : ∀ m, m.length = blockBytes g → f^[k] m = m) (s : State) :
    execAll (List.replicate k i) s = .next s := by
  by_cases hs : s.st = .fault
  · exact execAll_of_fault hs _
  · rw [h.execAll_replicate k hs, applyToW_eq_self (hk _ (by simpa using blockBytes_le g))]

end Sys2Proof.Machine
end

section
/-! PROOFS. The operations of the four round steps: what each makes of one cell or column, and the laws between them
(spec/42_round_steps.md R83 to R87, spec/41_constant_tables.md R76 to R80). -/

namespace Sys2Proof.Machine

/-! ## AddConstX -/

theorem cell_addConstX {g : Geom} (m : Bytes) (nu : Byte) {i j : Nat} (hi : i < 8) (hj : j < cols g) :
    cell (addConstX g m nu) i j = if i = 0 then cell m i j ^^^ kxByte j nu else cell m i j :=
  cell_matrix g _ hi hj

/-- The same constant twice cancels (R88). -/
theorem addConstX_addConstX {g : Geom} {m : Bytes} (nu : Byte) (hm : m.length = blockBytes g) :
    addConstX g (addConstX g m nu) nu = m := by
  refine ext_cell (length_addConstX ..) hm fun i j hi hj => ?_
  rw [cell_addConstX _ _ hi hj, cell_addConstX _ _ hi hj]
  split
  · rw [BitVec.xor_assoc, BitVec.xor_self, BitVec.xor_zero]
  · rfl

/-! ## AddConstA -/

theorem leValue_cons (b : Byte) (x : Bytes) : leValue (b :: x) = b.toNat + 256 * leValue x := rfl

theorem bytesLE_succ (n v : Nat) : bytesLE (n + 1) v = BitVec.ofNat 8 v :: bytesLE n (v / 256) := by
  simp [bytesLE, List.range_succ_eq_map, Nat.pow_succ', Nat.div_div_eq_div_mul]

/-- Reading back the `n` bytes of a number gives it modulo 256^n (R32, R33). -/
theorem leValue_bytesLE (n v : Nat) : leValue (bytesLE n v) = v % 256 ^ n := by
  induction n generalizing v with
  | zero => exact (Nat.mod_one v).symm
  | succ n ih => rw [bytesLE_succ, leValue_cons, ih, Nat.pow_succ', Nat.mod_mul, BitVec.toNat_ofNat]

theorem toNat_kaByte (g : Geom) (j : Nat) (nu : Byte) :
    (kaByte g j nu).toNat = ((cols g - 1 - j) <<< 4) ^^^ nu.toNat := by
  have hc := cols_le g
  rw [kaByte, BitVec.toNat_xor, BitVec.toNat_ofNat, Nat.mod_eq_of_lt (by omega), Nat.shiftLeft_eq, Nat.mul_comm]

/-- A number of 56 bits and a byte above it: their exclusive-or is their sum. -/
theorem xor_shiftLeft_eq_add {a : Nat} (ha : a < 2 ^ 56) (b : Nat) : a ^^^ (b <<< 56) = a + 2 ^ 56 * b := by
  have hmod : (a ^^^ (b <<< 56)) % 2 ^ 56 = a := by
    rw [Nat.xor_mod_two_pow, Nat.shiftLeft_eq, Nat.mul_mod_left, Nat.mod_eq_of_lt ha, Nat.xor_zero]
  have hdiv : (a ^^^ (b <<< 56)) / 2 ^ 56 = b := by
    rw [Nat.xor_div_two_pow, Nat.shiftLeft_eq, Nat.mul_div_cancel _ (by omega), Nat.div_eq_of_lt ha, Nat.zero_xor]
  rw [← Nat.mod_add_div (a ^^^ (b <<< 56)) (2 ^ 56), hmod, hdiv]

/-- The constant of T-add as a 64-bit number (R80). -/
theorem leValue_kaColumn (g : Geom) (j : Nat) (nu : Byte) :
    leValue (kaColumn g j nu) = 0x00F0F0F0F0F0F0F3 ^^^ ((((cols g - 1 - j) <<< 4) ^^^ nu.toNat) <<< 56) := by
  rw [xor_shiftLeft_eq_add (by decide), ← toNat_kaByte]
  simp [kaColumn, leValue]
  omega

theorem cell_addConstA {g : Geom} (m : Bytes) (nu : Byte) {i j : Nat} (hi : i < 8) (hj : j < cols g) :
    cell (addConstA g m nu) i j =
      (bytesLE 8 ((leValue (column m j) + leValue (kaColumn g j nu)) % 2 ^ 64)).getD i 0 :=
  cell_matrix g _ hi hj

/-! ## SubBytes -/

theorem cell_subBytes {g : Geom} (m : Bytes) {i j : Nat} (hi : i < 8) (hj : j < cols g) :
    cell (subBytes g m) i j = sboxEntry (Fin.ofNat 4 i) (cell m i j) :=
  cell_matrix g _ hi hj

/-! ## ShiftBytes -/

theorem shiftAmount_eq (g : Geom) (i : Nat) : shiftAmount g i = if g = .g16 ∧ i = 7 then 11 else i := by
  unfold shiftAmount
  split <;> simp_all

theorem shiftAmount_le_cols (g : Geom) {i : Nat} (hi : i < 8) : shiftAmount g i ≤ cols g := by
  rw [shiftAmount_eq]
  split
  · next h => rw [h.1]; decide
  · exact hi.le.trans (eight_le_cols g)

theorem cell_shiftBytes {g : Geom} (m : Bytes) {i j : Nat} (hi : i < 8) (hj : j < cols g) :
    cell (shiftBytes g m) i j = cell m i ((j + cols g - shiftAmount g i) % cols g) :=
  cell_matrix g _ hi hj

/-- The column a cell comes from goes back to it: moving right by `d` undoes the look to the left by `d`. -/
theorem add_mod_sub_mod {c d j : Nat} (hd : d ≤ c) (hj : j < c) : ((j + d) % c + c - d) % c = j := by
  rw [Nat.add_sub_assoc hd, Nat.mod_add_mod, show j + d + (c - d) = j + c by omega, Nat.add_mod_right,
    Nat.mod_eq_of_lt hj]

/-- `k` ShiftBytes look `k` times the distance to the left. -/
theorem cell_shiftBytes_iterate {g : Geom} (m : Bytes) (k : Nat) {i j : Nat} (hi : i < 8) (hj : j < cols g) :
    cell ((shiftBytes g)^[k] m) i j = cell m i ((j + k * (cols g - shiftAmount g i)) % cols g) := by
  induction k generalizing j with
  | zero => rw [Nat.zero_mul, Nat.add_zero, Nat.mod_eq_of_lt hj]; rfl
  | succ k ih =>
    rw [Function.iterate_succ_apply', cell_shiftBytes _ hi hj, ih (Nat.mod_lt _ (by omega)), Nat.mod_add_mod,
      Nat.add_sub_assoc (shiftAmount_le_cols g hi), Nat.succ_mul, Nat.add_right_comm, Nat.add_assoc j]

/-- c ShiftBytes move every row by a multiple of c (R91). -/
theorem shiftBytes_iterate_cols {g : Geom} {m : Bytes} (hm : m.length = blockBytes g) :
    (shiftBytes g)^[cols g] m = m := by
  refine ext_cell (length_iterate (length_shiftBytes g) _ hm) hm fun i j hi hj => ?_
  rw [cell_shiftBytes_iterate _ _ hi hj, Nat.add_mul_mod_self_left, Nat.mod_eq_of_lt hj]

/-! ## MixColumns -/

theorem cell_mixColumns {g : Geom} (m : Bytes) {i j : Nat} (hi : i < 8) (hj : j < cols g) :
    cell (mixColumns g m) i j = (List.range 8).foldl (fun acc k => acc ^^^ gfmul (mdsEntry i k) (cell m k j)) 0 :=
  cell_matrix g _ hi hj

/-- The rows counted from row `i` on are the eight rows in another order. -/
theorem range_perm_rotated : ∀ i < 8, (List.range 8).Perm ((List.range 8).map fun d => (i + d) % 8) := by decide

/-- Each row of the MDS matrix is the first one, rotated right once per row (R76). -/
theorem mdsEntry_rotated {i d : Nat} (hi : i < 8) (hd : d < 8) : mdsEntry i ((i + d) % 8) = mdsRow.getD d 0 := by
  rw [mdsEntry, show ((i + d) % 8 + 8 - i) % 8 = d by omega]

/-- An exclusive-or over the eight rows may begin at any row. -/
theorem foldl_xor_rotated (f : Nat → Byte) {i : Nat} (hi : i < 8) :
    (List.range 8).foldl (fun acc k => acc ^^^ f k) 0 =
      (List.range 8).foldl (fun acc d => acc ^^^ f ((i + d) % 8)) 0 := by
  have hcomm : RightCommutative fun (acc : Byte) k => acc ^^^ f k :=
    ⟨fun a k l => by rw [BitVec.xor_assoc, BitVec.xor_comm (f k), BitVec.xor_assoc]⟩
  rw [(range_perm_rotated i hi).foldl_eq, List.foldl_map]

/-- The eight terms of a row of MixColumns, from row `i` of the column on (R87). -/
theorem cell_mixColumns_eq {g : Geom} (m : Bytes) {i j : Nat} (hi : i < 8) (hj : j < cols g) :
    cell (mixColumns g m) i j =
      cell m i j ^^^ cell m ((i + 1) % 8) j ^^^ gfmul 0x05 (cell m ((i + 2) % 8) j) ^^^ cell m ((i + 3) % 8) j ^^^
      gfmul 0x08 (cell m ((i + 4) % 8) j) ^^^ gfmul 0x06 (cell m ((i + 5) % 8) j) ^^^
      gfmul 0x07 (cell m ((i + 6) % 8) j) ^^^ gfmul 0x04 (cell m ((i + 7) % 8) j) := by
  have hrow (d : Nat) (hd : d < 8) := mdsEntry_rotated hi hd
  have hdiag : mdsEntry i i = 1 := by simpa [Nat.mod_eq_of_lt hi, mdsRow] using hrow 0 (by omega)
  rw [cell_mixColumns _ hi hj, foldl_xor_rotated _ hi]
  simp [List.range_succ, hdiag, hrow, mdsRow, Nat.mod_eq_of_lt hi]

/-- The exclusive-or of term-wise exclusive-ors, term by term. -/
theorem foldl_xor_xor (l : List Nat) (f f' : Nat → Byte) (x y : Byte) :
    l.foldl (fun acc k => acc ^^^ (f k ^^^ f' k)) (x ^^^ y) =
      l.foldl (fun acc k => acc ^^^ f k) x ^^^ l.foldl (fun acc k => acc ^^^ f' k) y := by
  induction l generalizing x y with
  | nil => rfl
  | cons k l ih =>
    rw [List.foldl_cons, List.foldl_cons, List.foldl_cons, ← ih]
    congr 1
    ac_rfl

theorem mixColumns_xorBytes {g : Geom} {m n : Bytes} (hm : m.length = blockBytes g) (hn : n.length = blockBytes g) :
    mixColumns g (xorBytes m n) = xorBytes (mixColumns g m) (mixColumns g n) := by
  refine ext_cell (length_mixColumns ..) (by simp) fun i j hi hj => ?_
  rw [cell_xorBytes (by simp), cell_mixColumns _ hi hj, cell_mixColumns _ hi hj, cell_mixColumns _ hi hj]
  simp only [cell_xorBytes (hm.trans hn.symm), gfmul_xor_right]
  exact foldl_xor_xor _ _ _ 0 0

/-- A zero matrix is the exclusive-or of a matrix with itself, so additivity gives its image. -/
theorem mixColumns_zero (g : Geom) :
    mixColumns g (List.replicate (blockBytes g) 0) = List.replicate (blockBytes g) 0 := by
  have hz : (List.replicate (blockBytes g) (0 : Byte)).length = blockBytes g := List.length_replicate
  have h := mixColumns_xorBytes hz hz
  rwa [xorBytes_self, xorBytes_self, hz, length_mixColumns] at h

end Sys2Proof.Machine
end

section
/-! PROOFS. The statements about the working matrix: WPUT, WGET, the round steps, and what the commands with 8 columns
do not touch (spec/42_round_steps.md R81 to R93). -/

namespace Sys2Proof.Machine

/-! ## One byte of W -/

theorem exec_wput {i : Nat} (b : Byte) {s : State} (hs : s.st ≠ .fault) (hi : i < 128) :
    exec (.wput i b) s = .next { s with w := s.w.set i b hi } := by
  rw [exec_of_effect hs (by simp [faultCause, hs, hi]), commandEffect, dif_pos hi]

theorem exec_wget {i : Nat} {s : State} (hs : s.st ≠ .fault) (hi : i < 128) :
    exec (.wget i) s = .next { s with r := byteAt s.w i } := by
  rw [exec_of_effect hs (by simp [faultCause, hs, hi]), commandEffect, dif_pos hi, byteAt_of_lt _ hi]
  rfl

/-- Settles O22: WPUT sets one element of W, and a byte of a set array is the new or the old one. -/
theorem wputWritesOneByte : Obligations.WputWritesOneByte := by
  intro i x
  refine ⟨fun w => decode_eq_command_iff_encode.trans (and_congr_left' (by simp [Instr.WellFormed])),
    fun s => ⟨exec_of_fault _, fun hs hi => exec_of_cause (x := .range) (by simp [faultCause, hs, hi]),
      fun hs hi => ?_⟩⟩
  exact ⟨_, exec_wput x hs hi, rfl, byteAt_set_self s.w x hi, fun n hn hne => byteAt_set_ne s.w x hi hn hne⟩

/-- Settles O23: WGET writes one byte of W to R. -/
theorem wgetReadsOneByte : Obligations.WgetReadsOneByte := by
  intro i
  exact ⟨fun w => decode_eq_command_iff_encode.trans (and_congr_left' (by simp [Instr.WellFormed])),
    fun s => ⟨exec_of_fault _, fun hs hi => exec_of_cause (x := .range) (by simp [faultCause, hs, hi]), exec_wget⟩⟩

/-! ## The round steps -/

theorem ActsOnMatrix.byteAt_eq_cell {c : Instr} {g : Geom} {f : Bytes → Bytes} (h : ActsOnMatrix c g f) (s : State)
    {i j : Nat} (hi : i < 8) (hj : j < cols g) :
    byteAt (applyToW g f s).w (8 * j + i) = cell (f (firstBytes s.w (blockBytes g))) i j :=
  byteAt_applyToW_of_lt h.length s (cellIndex_lt hi hj)

/-- What a command leaves in W, from what its operation makes of one cell (R31, R93). -/
theorem ActsOnMatrix.workingResult {c : Instr} {g : Geom} {f : Bytes → Bytes} (h : ActsOnMatrix c g f) {s : State}
    {e : Nat → Nat → Byte}
    (he : ∀ i j, i < 8 → j < cols g → cell (f (firstBytes s.w (blockBytes g))) i j = e i j) :
    WorkingResult g s (applyToW g f s) e :=
  workingResult_applyToW (matrix_cell (h.length _)).symm he

/-- Settles O24: the operation is an involution, and its cells are the stated ones. -/
theorem addcxXorsTheRoundConstant : Obligations.AddcxXorsTheRoundConstant := by
  intro g nu
  have hact := actsOnMatrix_addcx g nu
  refine ⟨fun w => decode_eq_command_iff_encode.trans (and_iff_right rfl), fun s => ⟨exec_of_fault _, ?twice,
    fun hs => ⟨_, hact.exec_eq hs, hact.workingResult fun i j hi hj => ?cells⟩⟩⟩
  case twice => exact hact.execAll_replicate_eq_self (k := 2) (fun m => addConstX_addConstX nu) s
  case cells =>
    rw [cell_addConstX _ _ hi hj, cell_firstBytes _ hi hj]
    split
    · next h0 => subst h0; rfl
    · rfl

/-- The column an operation reads from W. -/
theorem column_firstBytes {g : Geom} (w : Vector Byte 128) {j : Nat} (hj : j < cols g) :
    column (firstBytes w (blockBytes g)) j = (w.toList.drop (8 * j)).take 8 := by
  have hc := cols_le g
  refine (take_drop_eq_of_byteAt (by omega) (by simp [column]) fun i hi => ?_).symm
  rw [← cell_firstBytes w hi hj]
  simp [column, hi]

/-- Settles O25: column by column, the bytes written are those of the sum, so their value is the sum. -/
theorem addcaAddsTheRoundConstant : Obligations.AddcaAddsTheRoundConstant := by
  intro g nu
  have hact := actsOnMatrix_addca g nu
  refine ⟨fun w => decode_eq_command_iff_encode.trans (and_iff_right rfl), fun s => ⟨exec_of_fault _,
    fun hs => ⟨_, hact.exec_eq hs, applyToW_eq_setW .., fun j hj => ?columns,
      fun n => byteAt_applyToW_of_ge hact.length s⟩⟩⟩
  have hc := cols_le g
  rw [take_drop_eq_of_byteAt (by omega) (length_bytesLE 8 _) fun i hi =>
      (hact.byteAt_eq_cell s hi hj).trans (cell_addConstA _ nu hi hj),
    leValue_bytesLE, column_firstBytes _ hj, leValue_kaColumn]
  exact Nat.mod_mod _ _

/-- Settles O26: the cells of SubBytes are the stated ones. -/
theorem subbSubstitutesByRow : Obligations.SubbSubstitutesByRow := by
  intro g
  have hact := actsOnMatrix_subb g
  refine ⟨fun w => decode_eq_command_iff_encode.trans (and_iff_right rfl), fun s => ⟨exec_of_fault _,
    fun hs => ⟨_, hact.exec_eq hs, hact.workingResult fun i j hi hj => ?cells⟩⟩⟩
  rw [cell_subBytes _ hi hj, cell_firstBytes _ hi hj]

/-- Settles O27: ShiftBytes has order dividing c, and the cell in the column moved to comes from the column moved
from. -/
theorem shiftRotatesTheRows : Obligations.ShiftRotatesTheRows := by
  intro g
  have hact := actsOnMatrix_shift g
  refine ⟨fun w => decode_eq_command_iff_encode.trans (and_iff_right rfl), fun s => ⟨exec_of_fault _,
    hact.execAll_replicate_eq_self (fun m => shiftBytes_iterate_cols) s,
    fun hs => ⟨_, hact.exec_eq hs, applyToW_eq_setW .., fun i j hi hj => ?cells,
      fun n => byteAt_applyToW_of_ge hact.length s⟩⟩⟩
  have hto : (j + shiftAmount g i) % cols g < cols g := Nat.mod_lt _ (by omega)
  rw [← shiftAmount_eq, hact.byteAt_eq_cell s hi hto, cell_shiftBytes _ hi hto,
    add_mod_sub_mod (shiftAmount_le_cols g hi) hj, cell_firstBytes _ hi hj]

/-- Settles O28: the cells of MixColumns are the stated sums. -/
theorem mixcMultipliesTheColumns : Obligations.MixcMultipliesTheColumns := by
  intro g
  have hact := actsOnMatrix_mixc g
  refine ⟨fun w => decode_eq_command_iff_encode.trans (and_iff_right rfl), fun s => ⟨exec_of_fault _,
    fun hs => ⟨_, hact.exec_eq hs, hact.workingResult fun i j hi hj => ?cells⟩⟩⟩
  have hcell (d : Nat) : cell (firstBytes s.w (blockBytes g)) ((i + d) % 8) j = byteAt s.w (8 * j + (i + d) % 8) :=
    cell_firstBytes _ (Nat.mod_lt _ (by omega)) hj
  rw [cell_mixColumns_eq _ hi hj, cell_firstBytes _ hi hj]
  simp only [hcell]

/-! ## Commands with 8 columns, and the linearity of MixColumns -/

/-- Every step, round and permutation command with g = 0 applies an operation to the lower half of W. -/
theorem exists_actsOnMatrix_of_narrow {i : Instr} (h : ∃ nu, i ∈ [.addcx .g8 nu, .addca .g8 nu, .subb .g8, .shift .g8,
    .mixc .g8, .rndx .g8 nu, .rnda .g8 nu, .permx .g8, .perma .g8]) : ∃ f, ActsOnMatrix i .g8 f := by
  obtain ⟨nu, h⟩ := h
  simp only [List.mem_cons, List.not_mem_nil, or_false] at h
  obtain rfl | rfl | rfl | rfl | rfl | rfl | rfl | rfl | rfl := h
  · exact ⟨_, actsOnMatrix_addcx .g8 nu⟩
  · exact ⟨_, actsOnMatrix_addca .g8 nu⟩
  · exact ⟨_, actsOnMatrix_subb .g8⟩
  · exact ⟨_, actsOnMatrix_shift .g8⟩
  · exact ⟨_, actsOnMatrix_mixc .g8⟩
  · exact ⟨_, actsOnMatrix_rndx .g8 nu⟩
  · exact ⟨_, actsOnMatrix_rnda .g8 nu⟩
  · exact ⟨_, actsOnMatrix_permx .g8⟩
  · exact ⟨_, actsOnMatrix_perma .g8⟩

/-- Settles O33: an operation on 8 columns reads and writes the first 64 bytes of W only. -/
theorem narrowCommandsKeepTheUpperHalf : Obligations.NarrowCommandsKeepTheUpperHalf := by
  intro i s s' t t' hi hs hs' h h'
  obtain ⟨f, hact⟩ := exists_actsOnMatrix_of_narrow hi
  cases (hact.exec_eq hs).symm.trans h
  cases (hact.exec_eq hs').symm.trans h'
  refine ⟨applyToW_eq_setW .., fun n => byteAt_applyToW_of_ge hact.length s, fun hlow n hn => ?_⟩
  rw [byteAt_applyToW_of_lt hact.length s hn, byteAt_applyToW_of_lt hact.length s' hn,
    firstBytes_congr (blockBytes_le .g8) hlow]

/-- Settles O34: additivity, and the zero matrix as a special case of it. -/
theorem mixColumnsIsLinear : Obligations.MixColumnsIsLinear :=
  fun g => ⟨fun _ _ => mixColumns_xorBytes, mixColumns_zero g⟩

end Sys2Proof.Machine
end

section
/-! PROOFS. Commands on W one after another: together they apply the composition of their operations
(spec/20_memory.md R40, spec/43_permutations.md R94 to R101). -/

namespace Sys2Proof.Machine

/-- The commands `is`, one after another, apply the operation `f`, from blocks to blocks, to the working matrix. -/
structure RunsOnMatrix (is : List Instr) (g : Geom) (f : Bytes → Bytes) : Prop where
  length {m : Bytes} (hm : m.length = blockBytes g) : (f m).length = blockBytes g
  execAll_eq {s : State} (hs : s.st ≠ .fault) : execAll is s = .next (applyToW g f s)

theorem runsOnMatrix_nil (g : Geom) : RunsOnMatrix [] g fun m => m :=
  ⟨fun hm => hm, fun _ => congrArg _ (applyToW_eq_self rfl).symm⟩

/-- The first command's operation comes first. -/
theorem ActsOnMatrix.cons {i : Instr} {is : List Instr} {g : Geom} {f f' : Bytes → Bytes} (h : ActsOnMatrix i g f)
    (h' : RunsOnMatrix is g f') : RunsOnMatrix (i :: is) g fun m => f' (f m) := by
  refine ⟨fun _ => h'.length (h.length _), fun {s} hs => ?_⟩
  rw [execAll, h.exec_eq hs]
  exact (h'.execAll_eq (by simpa using hs)).trans
    (congrArg _ (applyToW_applyToW g f f' s (h.length _) fun _ => h'.length))

/-- A command for each member of a list: together they fold their operations over the matrix. -/
theorem runsOnMatrix_map {α : Type} {g : Geom} {c : α → Instr} {f : Bytes → α → Bytes}
    (h : ∀ a, ActsOnMatrix (c a) g fun m => f m a) (l : List α) :
    RunsOnMatrix (l.map c) g fun m => l.foldl f m := by
  induction l with
  | nil => exact runsOnMatrix_nil g
  | cons a l ih => exact (h a).cons ih

/-- RoundX is its four steps (R94). -/
theorem runsOnMatrix_roundX (g : Geom) (nu : Byte) :
    RunsOnMatrix [.addcx g nu, .subb g, .shift g, .mixc g] g fun m => roundX g m nu :=
  (actsOnMatrix_addcx g nu).cons <| (actsOnMatrix_subb g).cons <| (actsOnMatrix_shift g).cons <|
    (actsOnMatrix_mixc g).cons <| runsOnMatrix_nil g

/-- RoundA is its four steps (R95). -/
theorem runsOnMatrix_roundA (g : Geom) (nu : Byte) :
    RunsOnMatrix [.addca g nu, .subb g, .shift g, .mixc g] g fun m => roundA g m nu :=
  (actsOnMatrix_addca g nu).cons <| (actsOnMatrix_subb g).cons <| (actsOnMatrix_shift g).cons <|
    (actsOnMatrix_mixc g).cons <| runsOnMatrix_nil g

/-- The number of rounds follows the geometry (R96). -/
theorem rounds_eq (g : Geom) : rounds g = if g = .g8 then 10 else 14 := by cases g <;> rfl

/-- Tx is its rounds (R96). -/
theorem runsOnMatrix_permX (g : Geom) :
    RunsOnMatrix ((List.range (if g = .g8 then 10 else 14)).map fun nu => .rndx g (BitVec.ofNat 8 nu)) g (permX g) := by
  rw [← rounds_eq]
  exact runsOnMatrix_map (fun nu => actsOnMatrix_rndx g (BitVec.ofNat 8 nu)) _

/-- Ta is its rounds (R97). -/
theorem runsOnMatrix_permA (g : Geom) :
    RunsOnMatrix ((List.range (if g = .g8 then 10 else 14)).map fun nu => .rnda g (BitVec.ofNat 8 nu)) g (permA g) := by
  rw [← rounds_eq]
  exact runsOnMatrix_map (fun nu => actsOnMatrix_rnda g (BitVec.ofNat 8 nu)) _

/-- A command and a sequence of commands that apply the same operation have the same effect, on W only. -/
theorem ActsOnMatrix.effect_eq {i : Instr} {is : List Instr} {g : Geom} {f : Bytes → Bytes} (h : ActsOnMatrix i g f)
    (h' : RunsOnMatrix is g f) (s : State) :
    (s.st = .fault → exec i s = .next s) ∧
    (s.st ≠ .fault → ∃ t, exec i s = .next t ∧ t = { s with w := t.w } ∧ execAll is s = .next t) :=
  ⟨exec_of_fault i, fun hs => ⟨_, h.exec_eq hs, applyToW_eq_setW .., h'.execAll_eq hs⟩⟩

end Sys2Proof.Machine
end

section
/-! PROOFS. The round steps, the rounds and the permutations are injective on blocks (spec/42_round_steps.md R83 to R87,
spec/43_permutations.md R94 to R97). -/

namespace Sys2Proof.Machine

/-- The byte strings of NB = 8c bytes. -/
abbrev blocks (g : Geom) : Set Bytes := {m | m.length = blockBytes g}

/-! ## AddConstX, SubBytes, ShiftBytes -/

theorem injOn_addConstX (g : Geom) (nu : Byte) : Set.InjOn (fun m => addConstX g m nu) (blocks g) :=
  Set.LeftInvOn.injOn (f₁' := fun m => addConstX g m nu) fun _ hm => addConstX_addConstX nu hm

theorem sboxEntry_injective (k : Fin 4) : Function.Injective (sboxEntry k) :=
  (bijective_of_valueSet_full (valueSet_sboxEntry_full k)).injective

theorem injOn_subBytes (g : Geom) : Set.InjOn (subBytes g) (blocks g) := by
  intro m hm n hn h
  refine ext_cell hm hn fun i j hi hj => sboxEntry_injective (Fin.ofNat 4 i) ?_
  rw [← cell_subBytes m hi hj, h, cell_subBytes n hi hj]

/-- One ShiftBytes is undone by c - 1 more (R91). -/
theorem injOn_shiftBytes (g : Geom) : Set.InjOn (shiftBytes g) (blocks g) := by
  refine Set.LeftInvOn.injOn (f₁' := (shiftBytes g)^[cols g - 1]) fun m hm => ?_
  rw [← Function.iterate_succ_apply, Nat.succ_eq_add_one, Nat.sub_add_cancel (by have := eight_le_cols g; omega)]
  exact shiftBytes_iterate_cols hm

/-! ## AddConstA -/

/-- A byte string is the bytes of its value (R32, R33). -/
theorem bytesLE_leValue (x : Bytes) : bytesLE x.length (leValue x) = x := by
  induction x with
  | nil => rfl
  | cons b x ih =>
    have hb := b.isLt
    have hhead : BitVec.ofNat 8 (b.toNat + 256 * leValue x) = b := BitVec.eq_of_toNat_eq (by simp; omega)
    have htail : (b.toNat + 256 * leValue x) / 256 = leValue x := by omega
    rw [List.length_cons, bytesLE_succ, leValue_cons, hhead, htail, ih]

theorem leValue_lt (x : Bytes) : leValue x < 256 ^ x.length := by
  rw [← bytesLE_leValue x, leValue_bytesLE, length_bytesLE]
  exact Nat.mod_lt _ (by positivity)

@[simp] theorem length_column (m : Bytes) (j : Nat) : (column m j).length = 8 := by simp [column]

theorem getD_column (m : Bytes) {i : Nat} (j : Nat) (hi : i < 8) : (column m j).getD i 0 = cell m i j := by
  simp [column, hi]

theorem leValue_column_lt (m : Bytes) (j : Nat) : leValue (column m j) < 2 ^ 64 := by
  simpa using leValue_lt (column m j)

/-- Two blocks whose columns have the same values are equal (R33). -/
theorem ext_leValue_column {g : Geom} {m n : Bytes} (hm : m.length = blockBytes g) (hn : n.length = blockBytes g)
    (h : ∀ j, j < cols g → leValue (column m j) = leValue (column n j)) : m = n := by
  refine ext_cell hm hn fun i j hi hj => ?_
  have hcol : column m j = column n j := by
    rw [← bytesLE_leValue (column m j), h j hj, length_column, ← length_column n j, bytesLE_leValue]
  rw [← getD_column m j hi, hcol, getD_column n j hi]

/-- The value of a column after AddConstA (R84). -/
theorem leValue_column_addConstA {g : Geom} (m : Bytes) (nu : Byte) {j : Nat} (hj : j < cols g) :
    leValue (column (addConstA g m nu) j) = (leValue (column m j) + leValue (kaColumn g j nu)) % 2 ^ 64 := by
  have hcol : column (addConstA g m nu) j =
      bytesLE 8 ((leValue (column m j) + leValue (kaColumn g j nu)) % 2 ^ 64) := by
    refine List.ext_getElem (by simp) fun i hi hi' => ?_
    rw [← List.getD_eq_getElem _ 0 hi, ← List.getD_eq_getElem _ 0 hi', getD_column _ _ (by simpa using hi),
      cell_addConstA _ _ (by simpa using hi) hj]
  rw [hcol, leValue_bytesLE]
  exact Nat.mod_mod _ _

/-- Adding a constant modulo 2^64 is injective on the numbers below 2^64. -/
theorem injOn_addConstA (g : Geom) (nu : Byte) : Set.InjOn (fun m => addConstA g m nu) (blocks g) := by
  intro m hm n hn h
  refine ext_leValue_column hm hn fun j hj => ?_
  have hsum := congrArg (fun x => leValue (column x j)) h
  simp only [leValue_column_addConstA _ nu hj] at hsum
  have hm' := leValue_column_lt m j
  have hn' := leValue_column_lt n j
  omega

/-! ## MixColumns: a matrix that undoes the MDS matrix -/

/-- The exclusive-or of `f k` over the eight rows `k`. -/
def xorRows (f : Nat → Byte) : Byte := (List.range 8).foldl (fun acc k => acc ^^^ f k) 0

theorem xorRows_congr {f f' : Nat → Byte} (h : ∀ k, k < 8 → f k = f' k) : xorRows f = xorRows f' :=
  List.foldl_ext _ _ _ fun _ k hk => by rw [h k (List.mem_range.1 hk)]

theorem xorRows_xor (f f' : Nat → Byte) : xorRows (fun k => f k ^^^ f' k) = xorRows f ^^^ xorRows f' :=
  foldl_xor_xor _ f f' 0 0

theorem gfmul_xorRows (a : Byte) (f : Nat → Byte) : gfmul a (xorRows f) = xorRows fun k => gfmul a (f k) := by
  have h := List.foldl_hom (gfmul a) (g₂ := fun acc k => acc ^^^ gfmul a (f k)) (l := List.range 8) (init := 0)
    fun x k => (gfmul_xor_right a x (f k)).symm
  exact h.symm.trans (by rw [show gfmul a 0 = 0 from gfmul_zero_right a]; rfl)

theorem xorRows_gfmul (f : Nat → Byte) (a : Byte) : gfmul (xorRows f) a = xorRows fun k => gfmul (f k) a := by
  simp only [gfmul_comm _ a, gfmul_xorRows]

/-- An exclusive-or of rows' exclusive-ors may be taken in either order. -/
theorem foldl_xor_xorRows (l : List Nat) (F : Nat → Nat → Byte) (f : Nat → Byte) :
    l.foldl (fun acc i => acc ^^^ xorRows (F i)) (xorRows f) =
      xorRows fun k => l.foldl (fun acc i => acc ^^^ F i k) (f k) := by
  induction l generalizing f with
  | nil => rfl
  | cons i l ih => rw [List.foldl_cons, ← xorRows_xor, ih]; rfl

theorem xorRows_comm (F : Nat → Nat → Byte) :
    (xorRows fun i => xorRows (F i)) = xorRows fun k => xorRows fun i => F i k :=
  foldl_xor_xorRows (List.range 8) F fun _ => 0

/-- Only row `l` contributes to a sum weighted by row `l` of the identity matrix. -/
theorem xorRows_single {l : Nat} (hl : l < 8) (f : Nat → Byte) :
    (xorRows fun k => gfmul (if l = k then 1 else 0) (f k)) = f l := by
  interval_cases l <;> simp [xorRows, List.range_succ]

/-- The first row of the inverse of the MDS matrix, which is circulant too. The spec prints no inverse (it is not needed
for hashing); `mdsInverse_mul` is what makes this the right one. -/
def mdsInverseRow : List Byte := [0xAD, 0x95, 0x76, 0xA8, 0x2F, 0x49, 0xD7, 0xCA]

/-- The entry in row `i` and column `k` of the inverse of the MDS matrix. -/
def mdsInverseEntry (i k : Nat) : Byte := mdsInverseRow.getD ((k + 8 - i) % 8) 0

/-- The product of the two matrices is the identity matrix. -/
theorem mdsInverse_mul : ∀ l < 8, ∀ k < 8,
    (xorRows fun i => gfmul (mdsInverseEntry l i) (mdsEntry i k)) = if l = k then 1 else 0 := by
  decide

theorem cell_mixColumns_eq_xorRows {g : Geom} (m : Bytes) {i j : Nat} (hi : i < 8) (hj : j < cols g) :
    cell (mixColumns g m) i j = xorRows fun k => gfmul (mdsEntry i k) (cell m k j) :=
  cell_mixColumns m hi hj

/-- The inverse matrix recovers every cell from its column after MixColumns. -/
theorem xorRows_mdsInverse_mixColumns {g : Geom} (m : Bytes) {l j : Nat} (hl : l < 8) (hj : j < cols g) :
    (xorRows fun i => gfmul (mdsInverseEntry l i) (cell (mixColumns g m) i j)) = cell m l j :=
  calc (xorRows fun i => gfmul (mdsInverseEntry l i) (cell (mixColumns g m) i j))
    _ = xorRows fun i => xorRows fun k => gfmul (gfmul (mdsInverseEntry l i) (mdsEntry i k)) (cell m k j) :=
        xorRows_congr fun i hi => by simp only [cell_mixColumns_eq_xorRows m hi hj, gfmul_xorRows, gfmul_assoc]
    _ = xorRows fun k => xorRows fun i => gfmul (gfmul (mdsInverseEntry l i) (mdsEntry i k)) (cell m k j) :=
        xorRows_comm _
    _ = xorRows fun k => gfmul (xorRows fun i => gfmul (mdsInverseEntry l i) (mdsEntry i k)) (cell m k j) := by
        simp only [xorRows_gfmul]
    _ = xorRows fun k => gfmul (if l = k then 1 else 0) (cell m k j) :=
        xorRows_congr fun k hk => by rw [mdsInverse_mul l hl k hk]
    _ = cell m l j := xorRows_single hl _

theorem injOn_mixColumns (g : Geom) : Set.InjOn (mixColumns g) (blocks g) := by
  intro m hm n hn h
  refine ext_cell hm hn fun i j hi hj => ?_
  rw [← xorRows_mdsInverse_mixColumns m hi hj, h, xorRows_mdsInverse_mixColumns n hi hj]

/-! ## The rounds and the permutations -/

/-- The three steps a round ends with, as one operation. -/
theorem injOn_roundTail (g : Geom) :
    Set.InjOn (fun m => mixColumns g (shiftBytes g (subBytes g m))) (blocks g) :=
  (injOn_mixColumns g).comp ((injOn_shiftBytes g).comp (injOn_subBytes g) fun m _ => length_subBytes g m)
    fun _ _ => length_shiftBytes ..

theorem injOn_roundX (g : Geom) (nu : Byte) : Set.InjOn (fun m => roundX g m nu) (blocks g) :=
  (injOn_roundTail g).comp (injOn_addConstX g nu) fun m _ => length_addConstX g m nu

theorem injOn_roundA (g : Geom) (nu : Byte) : Set.InjOn (fun m => roundA g m nu) (blocks g) :=
  (injOn_roundTail g).comp (injOn_addConstA g nu) fun m _ => length_addConstA g m nu

/-- A fold of operations from blocks to blocks is injective on blocks when each of them is. -/
theorem injOn_foldl {α : Type} {g : Geom} {f : Bytes → α → Bytes} (hlen : ∀ m a, (f m a).length = blockBytes g)
    (hinj : ∀ a, Set.InjOn (fun m => f m a) (blocks g)) (l : List α) :
    Set.InjOn (fun m => l.foldl f m) (blocks g) := by
  induction l with
  | nil => exact fun _ _ _ _ h => h
  | cons a l ih => exact ih.comp (hinj a) fun m _ => hlen m a

theorem injOn_permX (g : Geom) : Set.InjOn (permX g) (blocks g) :=
  injOn_foldl (fun m nu => length_roundX g m (BitVec.ofNat 8 nu)) (fun nu => injOn_roundX g (BitVec.ofNat 8 nu)) _

theorem injOn_permA (g : Geom) : Set.InjOn (permA g) (blocks g) :=
  injOn_foldl (fun m nu => length_roundA g m (BitVec.ofNat 8 nu)) (fun nu => injOn_roundA g (BitVec.ofNat 8 nu)) _

end Sys2Proof.Machine
end

section
/-! PROOFS. The statements about the rounds and the permutations (spec/43_permutations.md R94 to R101). -/

namespace Sys2Proof.Machine

/-- Settles O29: RNDX and its four steps apply the same operation to W. -/
theorem rndxIsFourSteps : Obligations.RndxIsFourSteps := fun g nu =>
  ⟨fun _ => decode_eq_command_iff_encode.trans (and_iff_right rfl),
    (actsOnMatrix_rndx g nu).effect_eq (runsOnMatrix_roundX g nu)⟩

/-- Settles O30: RNDA and its four steps apply the same operation to W. -/
theorem rndaIsFourSteps : Obligations.RndaIsFourSteps := fun g nu =>
  ⟨fun _ => decode_eq_command_iff_encode.trans (and_iff_right rfl),
    (actsOnMatrix_rnda g nu).effect_eq (runsOnMatrix_roundA g nu)⟩

/-- Settles O31: PERMX and its rounds apply the same operation to W. -/
theorem permxIsTheRounds : Obligations.PermxIsTheRounds := fun g =>
  ⟨fun _ => decode_eq_command_iff_encode.trans (and_iff_right rfl),
    (actsOnMatrix_permx g).effect_eq (runsOnMatrix_permX g)⟩

/-- Settles O32: PERMA and its rounds apply the same operation to W. -/
theorem permaIsTheRounds : Obligations.PermaIsTheRounds := fun g =>
  ⟨fun _ => decode_eq_command_iff_encode.trans (and_iff_right rfl),
    (actsOnMatrix_perma g).effect_eq (runsOnMatrix_permA g)⟩

/-- Settles O35: each round step is injective on blocks, so the rounds and the permutations are. -/
theorem permutationsAreBijections : Obligations.PermutationsAreBijections := fun g =>
  ⟨fun m _ => ⟨length_permX g m, length_permA g m⟩, fun _ _ hm hn h => injOn_permX g hm hn h,
    fun _ _ hm hn h => injOn_permA g hm hn h⟩

end Sys2Proof.Machine
end

section
/-! PROOFS. The compression function, truncation, and the two commands that use them: ABSORB and FINAL
(spec/44_compression.md R104 to R107; spec/46_hasher_commands.md R123, R124). -/

namespace Sys2Proof.Machine

/-! ## Exclusive-or and truncation -/

/-- Adding the same string twice cancels. -/
theorem xorBytes_xorBytes_cancel {x y : Bytes} (h : x.length = y.length) : xorBytes (xorBytes x y) y = x := by
  refine List.ext_getElem (by simp [h]) fun i _ _ => ?_
  simp only [xorBytes, List.getElem_zipWith, BitVec.xor_assoc, BitVec.xor_self, BitVec.xor_zero]

/-- Byte `i` of the truncated string (R106). -/
theorem getD_truncate (nb : Nat) {out i : Nat} (s : Bytes) (hi : i < out) :
    (truncate nb out s).getD i 0 = s.getD (nb - out + i) 0 := by
  rw [List.getD_eq_getElem _ _ (by simpa using hi)]
  simp [truncate]

/-- Both are suffixes of the same NB bytes, so the shorter is a suffix of the longer (R107 (c)). -/
theorem truncate_eq_drop_truncate {nb out out' : Nat} (s : Bytes) (hle : out ≤ out') (hnb : out' ≤ nb) :
    truncate nb out s = (truncate nb out' s).drop (out' - out) := by
  refine List.ext_getElem (by simp; omega) fun i hi _ => ?_
  have hindex : nb - out + i = nb - out' + (out' - out + i) := by omega
  simp [truncate, hindex]

/-! ## The digest of a message -/

/-- The NB bytes of which the digest of `m` is the tail; they depend on the geometry only (R125). -/
def untruncatedDigest (g : Geom) (m : Bytes) : Bytes :=
  let tail := m.drop (m.length / blockBytes g * blockBytes g)
  outputTransform g
    (finalChain g (chainBlocks g (ivBytes g) m (m.length / blockBytes g)) tail (8 * m.length % 2 ^ 96))

theorem kupyna_eq_truncate (v : Variant) (m : Bytes) :
    kupyna v m = truncate (variantBlock v) (variantOut v) (untruncatedDigest (variantGeom v) m) := rfl

theorem variantOut_le_variantBlock (v : Variant) : variantOut v ≤ variantBlock v := by cases v <;> decide

theorem length_kupyna (v : Variant) (m : Bytes) : (kupyna v m).length = variantOut v := length_truncate ..

/-- Of two variants of the same geometry the shorter digest is the tail of the longer (R107 (c)). -/
theorem kupyna_eq_drop_kupyna {v v' : Variant} (m : Bytes) (hg : variantGeom v = variantGeom v')
    (hle : variantOut v ≤ variantOut v') : kupyna v m = (kupyna v' m).drop (variantOut v' - variantOut v) := by
  have hblock : variantBlock v = variantBlock v' := congrArg blockBytes hg
  rw [kupyna_eq_truncate, kupyna_eq_truncate, hg, hblock]
  exact truncate_eq_drop_truncate _ hle (variantOut_le_variantBlock v')

/-! ## What ABSORB leaves in the registers -/

theorem exec_absorb (x : Byte) {s : State} (hs : s.st = .accepting) :
    exec (.absorb x) s = .next (absorbByte x s) :=
  exec_of_effect (i := .absorb x) (by simp [hs]) (by rw [hs]; rfl)

theorem toNat_l_absorbByte (x : Byte) (s : State) : (absorbByte x s).l.toNat = (s.l.toNat + 8) % 2 ^ 96 := by
  rw [absorbByte_l, BitVec.toNat_add]
  rfl

theorem byteAt_b_absorbByte_self (x : Byte) (s : State) : byteAt (absorbByte x s).b s.blen.toNat = x := by
  rw [absorbByte_b, byteAt_set_self]

theorem byteAt_b_absorbByte_ne (x : Byte) (s : State) {n : Nat} (hn : n < 128) (hne : n ≠ s.blen.toNat) :
    byteAt (absorbByte x s).b n = byteAt s.b n := by
  rw [absorbByte_b, byteAt_set_ne _ _ _ hn hne]

/-- A byte that leaves the block incomplete writes B, BLEN and L only (R123). -/
theorem absorbByte_frame_of_room (x : Byte) {s : State} (h : s.blen.toNat + 1 < variantBlock s.var) :
    absorbByte x s =
      { s with b := (absorbByte x s).b, blen := (absorbByte x s).blen, l := (absorbByte x s).l } := by
  have hblen : (absorbByte x s).blen = s.blen + 1 := congrArg State.blen (absorbByte_of_room h.ne)
  rw [hblen, absorbByte_l]
  exact absorbByte_of_room h.ne

/-- A byte that completes a block empties the buffer and writes B, L and H besides (R123). -/
theorem absorbByte_frame_of_full (x : Byte) {s : State} (h : s.blen.toNat + 1 = variantBlock s.var) :
    absorbByte x s =
      { s with b := (absorbByte x s).b, blen := 0, l := (absorbByte x s).l, h := (absorbByte x s).h } := by
  have hchain := congrArg State.h (absorbByte_of_full (x := x) h)
  rw [hchain, absorbByte_l]
  exact absorbByte_of_full h

theorem length_firstBytes_variantBlock (a : Vector Byte 128) (v : Variant) :
    (firstBytes a (variantBlock v)).length = variantBlock v := by
  simpa using variantBlock_le v

/-- The compression of a full block writes no byte of H from NB on (R27). -/
theorem byteAt_h_absorbByte_of_full_of_ge (x : Byte) {s : State} (h : s.blen.toNat + 1 = variantBlock s.var)
    {n : Nat} (hge : variantBlock s.var ≤ n) (hn : n < 128) : byteAt (absorbByte x s).h n = byteAt s.h n := by
  rw [absorbByte_of_full h]
  exact byteAt_writeFirst_of_ge _ _ hn
    ((length_compress _ _ _ (length_firstBytes_variantBlock s.h s.var)).trans_le hge)

/-! ## What FINAL leaves in the registers -/

theorem exec_final {s : State} (hs : s.st = .accepting) : exec .final s = .next (finalize s) :=
  exec_of_effect (i := .final) (by simp [hs]) (by rw [hs]; rfl)

/-- The chain value after the finalisation loop, from the registers of `s` (R112). -/
def lastChain (s : State) : Bytes :=
  finalChain (variantGeom s.var) (firstBytes s.h (variantBlock s.var)) (firstBytes s.b s.blen.toNat) s.l.toNat

theorem finalize_eq (s : State) :
    finalize s =
      { s with
        h := writeFirst s.h (lastChain s)
        digest := writeFirst s.digest
          (truncate (variantBlock s.var) (variantOut s.var) (outputTransform (variantGeom s.var) (lastChain s)))
        st := .finalized } := rfl

theorem length_lastChain (s : State) : (lastChain s).length = variantBlock s.var :=
  length_chainBlocks _ _ _ _ (length_firstBytes_variantBlock s.h s.var)

theorem firstBytes_h_finalize (s : State) : firstBytes (finalize s).h (variantBlock s.var) = lastChain s := by
  rw [finalize_eq]
  exact firstBytes_writeFirst_of_length _ _ (length_lastChain s) (variantBlock_le _)

theorem byteAt_h_finalize_of_ge (s : State) {n : Nat} (hge : variantBlock s.var ≤ n) (hn : n < 128) :
    byteAt (finalize s).h n = byteAt s.h n := by
  rw [finalize_eq]
  exact byteAt_writeFirst_of_ge _ _ hn ((length_lastChain s).trans_le hge)

/-- A byte of DIGEST below OUT is one of the last OUT bytes of the output transform (R106, R124). -/
theorem byteAt_digest_finalize_of_lt (s : State) {n : Nat} (hn : n < variantOut s.var) :
    byteAt (finalize s).digest n =
      (outputTransform (variantGeom s.var) (lastChain s)).getD (variantBlock s.var - variantOut s.var + n) 0 := by
  rw [finalize_eq]
  exact (byteAt_writeFirst_of_lt _ (hn.trans_le (variantOut_le _)) (by simpa using hn) 0).trans
    (getD_truncate _ _ hn)

theorem byteAt_digest_finalize_of_ge (s : State) {n : Nat} (hge : variantOut s.var ≤ n) (hn : n < 64) :
    byteAt (finalize s).digest n = byteAt s.digest n := by
  rw [finalize_eq]
  exact byteAt_writeFirst_of_ge _ _ hn (by simpa using hge)

/-! ## The statements -/

/-- Settles O19: the state after ABSORB, register by register, in its two cases of a byte that leaves room and a byte
that completes the block. -/
theorem absorbTakesOneByte : Obligations.AbsorbTakesOneByte := by
  intro x
  refine ⟨fun w => decode_eq_command_iff_encode.trans (and_iff_right rfl), fun s => ⟨exec_of_fault _,
    fun hs => exec_of_cause (by rw [hs]; rfl), fun hs => exec_of_cause (by rw [hs]; rfl), fun hs hroom => ?room,
    fun hs hfull => ?full⟩⟩
  case room =>
    exact ⟨absorbByte x s, exec_absorb x hs, absorbByte_frame_of_room x hroom,
      toNat_blen_absorbByte_of_room x hroom, toNat_l_absorbByte x s, byteAt_b_absorbByte_self x s,
      fun _ => byteAt_b_absorbByte_ne x s⟩
  case full =>
    exact ⟨absorbByte x s, exec_absorb x hs, absorbByte_frame_of_full x hfull, toNat_l_absorbByte x s,
      byteAt_b_absorbByte_self x s, fun _ => byteAt_b_absorbByte_ne x s, firstBytes_h_absorbByte_of_full x hfull,
      fun _ => byteAt_h_absorbByte_of_full_of_ge x hfull⟩

/-- Settles O20: FINAL writes the last chain value to H and the tail of its output transform to DIGEST. The chain
value has NB bytes whatever BLEN is, so the premise `BLEN < NB` is not needed. -/
theorem finalProducesTheDigest : Obligations.FinalProducesTheDigest := by
  refine ⟨fun w => decode_eq_command_iff_encode.trans (and_iff_right rfl), fun s => ⟨exec_of_fault _,
    fun hs => exec_of_cause (by rw [hs]; rfl), fun hs => exec_of_cause (by rw [hs]; rfl), fun hs _ => ?_⟩⟩
  exact ⟨finalize s, lastChain s, exec_final hs, finalize_eq s, rfl, firstBytes_h_finalize s,
    fun _ => byteAt_h_finalize_of_ge s, fun _ => byteAt_digest_finalize_of_lt s,
    fun _ => byteAt_digest_finalize_of_ge s⟩

/-- Settles O41: `Compress(h, m)` ends in `^ h`, which a second `^ h` cancels. -/
theorem compressCombinesTheBranches : Obligations.CompressCombinesTheBranches := fun _ _ _ hh _ =>
  ⟨length_compress _ _ _ hh, xorBytes_xorBytes_cancel (by simp [hh])⟩

/-- Settles O44: variants of one geometry truncate the same bytes to different lengths. -/
theorem shorterDigestsAreTails : Obligations.ShorterDigestsAreTails := fun m =>
  ⟨kupyna_eq_drop_kupyna m rfl (by decide), kupyna_eq_drop_kupyna m rfl (by decide), fun v => length_kupyna v m⟩

end Sys2Proof.Machine
end

section
/-! PROOFS. What `Pad` appends, how many blocks the padded region fills, and why the padded message determines the
message (spec/45_padding.md R110 to R114). -/

namespace Sys2Proof.Machine

/-! ## The number of zero bytes -/

theorem thirteen_le_blockBytes (g : Geom) : 13 ≤ blockBytes g := by cases g <;> decide

theorem padZeros_lt {nb : Nat} (r : Nat) (hnb : 0 < nb) : padZeros nb r < nb := by
  have hlt := Int.emod_lt_of_pos ((nb : Int) - 13 - r) (Int.natCast_pos.mpr hnb)
  unfold padZeros
  omega

/-- The tail, 0x80 and the length field fit one block: the zero bytes fill it. -/
theorem padZeros_of_le {nb r : Nat} (h : r + 13 ≤ nb) : padZeros nb r = nb - (r + 13) := by
  rw [padZeros, Int.emod_eq_of_lt (by omega) (by omega)]
  omega

/-- They do not fit: `NB - 13 - r` is negative, and its remainder is the rest of a second block. -/
theorem padZeros_of_gt {nb r : Nat} (hnb : 13 ≤ nb) (hr : r < nb) (h : nb < r + 13) :
    padZeros nb r = 2 * nb - (r + 13) := by
  rw [padZeros, ← Int.add_emod_right, Int.emod_eq_of_lt (by omega) (by omega)]
  omega

/-! ## The padded region -/

/-- What `Pad` appends to a tail of `r` bytes, up to the length field. -/
def padMark (nb r : Nat) : Bytes := 0x80 :: List.replicate (padZeros nb r) 0

theorem pad_eq (nb : Nat) (b : Bytes) (l : Nat) : pad nb b l = b ++ (padMark nb b.length ++ bytesLE 12 l) := by
  simp [pad, padMark]

@[simp] theorem length_padMark (nb r : Nat) : (padMark nb r).length = padZeros nb r + 1 := by simp [padMark]

theorem length_pad (nb : Nat) (b : Bytes) (l : Nat) :
    (pad nb b l).length = b.length + 13 + padZeros nb b.length := by
  simp only [pad_eq, List.length_append, length_padMark, length_bytesLE]
  omega

theorem length_pad_eq_ite {nb : Nat} (hnb : 13 ≤ nb) {b : Bytes} (l : Nat) (hb : b.length < nb) :
    (pad nb b l).length = if b.length + 13 ≤ nb then nb else 2 * nb := by
  rw [length_pad]
  split_ifs with hfit
  · rw [padZeros_of_le hfit]; omega
  · rw [padZeros_of_gt hnb hb (by omega)]; omega

theorem length_pad_eq_or {nb : Nat} (hnb : 13 ≤ nb) {b : Bytes} (l : Nat) (hb : b.length < nb) :
    (pad nb b l).length = nb ∨ (pad nb b l).length = 2 * nb :=
  length_pad_eq_ite hnb l hb ▸ ite_eq_or_eq ..

theorem take_pad (nb : Nat) (b : Bytes) (l : Nat) : (pad nb b l).take b.length = b := by
  rw [pad_eq, List.take_left]

theorem drop_pad (nb : Nat) (b : Bytes) (l : Nat) :
    (pad nb b l).drop ((pad nb b l).length - 12) = bytesLE 12 l := by
  rw [length_pad, pad_eq, ← List.append_assoc]
  exact List.drop_left' (by simp; omega)

theorem getD_pad_add (nb : Nat) (b : Bytes) (l k : Nat) :
    (pad nb b l).getD (b.length + k) 0 = (padMark nb b.length ++ bytesLE 12 l).getD k 0 := by
  rw [pad_eq, List.getD_append_right _ _ _ _ (by omega), Nat.add_sub_cancel_left]

theorem getD_pad_length (nb : Nat) (b : Bytes) (l : Nat) : (pad nb b l).getD b.length 0 = 0x80 :=
  getD_pad_add nb b l 0

theorem getD_pad_between {nb n : Nat} {b : Bytes} {l : Nat} (hlo : b.length < n)
    (hhi : n < (pad nb b l).length - 12) : (pad nb b l).getD n 0 = 0 := by
  obtain ⟨k, rfl⟩ : ∃ k, n = b.length + (k + 1) := ⟨n - b.length - 1, by omega⟩
  have hk : k < padZeros nb b.length := by rw [length_pad] at hhi; omega
  rw [getD_pad_add, List.getD_append _ _ _ _ (by simpa using hk)]
  exact List.getD_replicate _ hk

/-! ## The padded message -/

/-- The bytes left of `m` after its complete blocks. -/
def messageTail (nb : Nat) (m : Bytes) : Bytes := m.drop (m.length / nb * nb)

theorem length_messageTail (nb : Nat) (m : Bytes) : (messageTail nb m).length = m.length % nb := by
  have := Nat.div_add_mod' m.length nb
  simp only [messageTail, List.length_drop]
  omega

theorem paddedMessage_eq_blocks (nb : Nat) (m : Bytes) :
    paddedMessage nb m = m.take (m.length / nb * nb) ++ pad nb (messageTail nb m) (8 * m.length % 2 ^ 96) := rfl

/-- Blocks and tail put together again: the padded message begins with the message. -/
theorem paddedMessage_eq_append (nb : Nat) (m : Bytes) :
    paddedMessage nb m = m ++ padMark nb (m.length % nb) ++ bytesLE 12 (8 * m.length % 2 ^ 96) := by
  rw [paddedMessage_eq_blocks, pad_eq, length_messageTail, messageTail, ← List.append_assoc, List.take_append_drop,
    List.append_assoc]

theorem length_paddedMessage (nb : Nat) (m : Bytes) :
    (paddedMessage nb m).length = m.length + 13 + padZeros nb (m.length % nb) := by
  simp only [paddedMessage_eq_append, List.length_append, length_padMark, length_bytesLE]
  omega

theorem dvd_length_paddedMessage {nb : Nat} (hnb : 13 ≤ nb) (m : Bytes) : nb ∣ (paddedMessage nb m).length := by
  have htail : (messageTail nb m).length < nb := length_messageTail nb m ▸ Nat.mod_lt _ (by omega)
  have hblocks : nb ∣ (m.take (m.length / nb * nb)).length := by
    rw [List.length_take_of_le (Nat.div_mul_le_self ..)]
    exact Nat.dvd_mul_left ..
  have hregion : nb ∣ (pad nb (messageTail nb m) (8 * m.length % 2 ^ 96)).length := by
    obtain h | h := length_pad_eq_or hnb (8 * m.length % 2 ^ 96) htail
    · exact h.symm.dvd
    · exact Dvd.intro_left 2 h.symm
  rw [paddedMessage_eq_blocks, List.length_append]
  exact Nat.dvd_add hblocks hregion

/-- The length field of a message below 2^96 bits holds its length. -/
theorem leValue_lengthField {m : Bytes} (hm : 8 * m.length < 2 ^ 96) :
    leValue (bytesLE 12 (8 * m.length % 2 ^ 96)) = 8 * m.length := by
  rw [leValue_bytesLE, Nat.mod_eq_of_lt hm]
  exact Nat.mod_eq_of_lt (by omega)

/-- The length field gives the length of the message, and the message is that many first bytes. -/
theorem paddedMessage_injective {nb : Nat} {m m' : Bytes} (hm : 8 * m.length < 2 ^ 96)
    (hm' : 8 * m'.length < 2 ^ 96) (h : paddedMessage nb m = paddedMessage nb m') : m = m' := by
  rw [paddedMessage_eq_append, paddedMessage_eq_append] at h
  obtain ⟨hbefore, hfield⟩ := List.append_inj' h (by simp)
  have hlength : m.length = m'.length := by
    have := leValue_lengthField hm
    rw [hfield, leValue_lengthField hm'] at this
    omega
  exact List.append_inj_left hbefore hlength

/-! ## The statements -/

/-- Settles O42: the zero bytes fill the first block, or the second when 13 bytes more than the tail exceed one. -/
theorem paddingFillsOneOrTwoBlocks : Obligations.PaddingFillsOneOrTwoBlocks := fun g _ l hb =>
  length_pad_eq_ite (thirteen_le_blockBytes g) l hb

/-- Settles O43: the shape is read off the parts of `Pad`; the padded message is the message with fewer than NB zero
bytes more than the 13 it must hold; its length field says how many first bytes are the message. -/
theorem paddingHasTheStatedShape : Obligations.PaddingHasTheStatedShape := by
  intro g
  have hnb := thirteen_le_blockBytes g
  refine ⟨fun b l hb => ?region, fun m => ?length, fun _ _ => paddedMessage_injective⟩
  case region =>
    exact ⟨length_pad_eq_or hnb l hb, take_pad _ b l, getD_pad_length _ b l, drop_pad _ b l,
      fun _ => getD_pad_between⟩
  case length =>
    have hzeros := padZeros_lt (m.length % blockBytes g) (blockBytes_pos g)
    have hlength := length_paddedMessage (blockBytes g) m
    exact ⟨dvd_length_paddedMessage hnb m, by omega, by omega⟩

end Sys2Proof.Machine
end

section
/-! PROOFS. The statements about the hasher commands as a whole: NOP, DGET, FINAL after a message, the commands that may
stand between them, and the table of ST and CAUSE (spec/46_hasher_commands.md R120 to R128). -/

namespace Sys2Proof.Machine

/-! ## ST and CAUSE after a command -/

/-- Nothing faults in FAULT (R168). -/
theorem faultCause_fault (v : Variant) (i : Instr) : faultCause .fault v i = none := by cases i <;> rfl

theorem stAfter_fault (i : Instr) : stAfter .fault i = .fault := by cases i <;> rfl

/-- A command's own effect leads to the state that the table gives (R127). -/
theorem commandEffect_st {i : Instr} {s : State} (hs : s.st ≠ .fault) (h : faultCause s.st s.var i = none) :
    (commandEffect i s).st = stAfter s.st i := by
  cases i with
  | init | reset => simp [commandEffect, stAfter, hs]
  | final => simp [commandEffect, stAfter, accepting_of_faultCause_final hs h]
  | wput n | wget n => by_cases hn : n < 128 <;> simp [commandEffect, stAfter, hn]
  | nop | absorb | dget | gfmul | gfinv | sbox => simp [commandEffect, stAfter]
  | addcx | addca | subb | shift | mixc | rndx | rnda | permx | perma => simp [commandEffect, stAfter]

/-- Only a fault writes CAUSE (R161). -/
theorem commandEffect_cause (i : Instr) (s : State) : (commandEffect i s).cause = s.cause := by
  cases i with
  | wput n | wget n => by_cases hn : n < 128 <;> simp [commandEffect, hn]
  | nop | init | reset | absorb | final | dget | gfmul | gfinv | sbox => simp [commandEffect]
  | addcx | addca | subb | shift | mixc | rndx | rnda | permx | perma => simp [commandEffect]

/-- Settles O13: a command is ignored in FAULT, faults with its cause or has its own effect; an illegal word is ignored
or raises ILLEGAL. -/
theorem transitionTableHolds : Obligations.TransitionTableHolds := by
  refine ⟨fun i s => ?command, fun w s why hd => ?illegal⟩
  case command =>
    by_cases hs : s.st = .fault
    · exact ⟨s, exec_of_fault i hs, by simp [hs, faultCause_fault, stAfter_fault], by simp [hs, faultCause_fault]⟩
    · cases hc : faultCause s.st s.var i with
      | some x => exact ⟨raiseFault x s, exec_of_cause hc, rfl, rfl⟩
      | none => exact ⟨commandEffect i s, exec_of_effect hs hc, commandEffect_st hs hc, commandEffect_cause i s⟩
  case illegal =>
    obtain ⟨hs, ha⟩ | ⟨hs, -, ha⟩ | ⟨-, i, hi, -⟩ := acceptWord_cases w s
    · exact ⟨s, ha, hs, (if_pos hs).symm⟩
    · exact ⟨raiseFault .illegal s, ha, rfl, (if_neg hs).symm⟩
    · cases hd.symm.trans hi

/-! ## DGET -/

theorem exec_dget {i : Nat} {s : State} (hs : s.st = .finalized) (hi : i < variantOut s.var) :
    exec (.dget i) s = .next { s with r := byteAt s.digest i } :=
  exec_of_effect (i := .dget i) (by simp [hs]) (by simp [faultCause, hs, hi])

/-- Settles O21: whether DGET faults is decided by ST first and the index second, and its effect is to write one byte
of DIGEST to R. -/
theorem dgetReadsTheDigest : Obligations.DgetReadsTheDigest := by
  intro i
  refine ⟨fun w => decode_eq_command_iff_encode.trans (and_congr_left' (by simp [Instr.WellFormed])),
    fun s => ⟨exec_of_fault _, fun hs => exec_of_cause (x := .noDigest) ?state,
      fun hs hi => exec_of_cause (x := .range) ?range, exec_dget⟩⟩
  case state => obtain hs | hs := hs <;> rw [hs] <;> rfl
  case range => simp [faultCause, hs, hi]

/-! ## FINAL and the commands between -/

/-- Settles O47: FINAL takes effect after any message, and its effect leaves the digest. -/
theorem finalDigestsTheMessage : Obligations.FinalDigestsTheMessage :=
  fun _ s h => ⟨finalize s, exec_final_of_absorbed h, digested_finalize h, finalize_var s⟩

/-- NOP and an engine-direct command that does not fault write W and R at most (R28). -/
theorem CommandOutcome.eq_setOthers {i : Instr} {s t : State} (h : CommandOutcome s i t)
    (hi : i = .nop ∨ engineDirect i = true) (ht : t.st ≠ .fault) : ∃ w r, t = { s with w := w, r := r } := by
  cases h with
  | ignored | nop => exact ⟨s.w, s.r, rfl⟩
  | faulted => exact absurd rfl ht
  | result v => exact ⟨s.w, v, rfl⟩
  | working x => exact ⟨x, s.r, rfl⟩
  | init | reset | absorb | final => simp [engineDirect] at hi

/-- Settles O48: neither the message absorbed nor the digest depends on W and R. -/
theorem otherCommandsKeepTheMessage : Obligations.OtherCommandsKeepTheMessage := by
  intro i m s t hi h ht
  obtain ⟨w, r, rfl⟩ := (exec_outcome h).eq_setOthers hi ht
  exact ⟨fun ha => ha.setOthers w r s.host, fun hd => hd.setOthers w r s.host⟩

/-! ## NOP -/

/-- Settles O16: the row of NOP has every bit fixed, so it matches the word 0 only, and no other row has its opcode. -/
theorem nopHasNoEffect : Obligations.NopHasNoEffect := by
  refine ⟨fun w => decode_eq_command_iff_encode.trans (and_iff_right rfl), fun w hop hw => ?_, fun s => rfl⟩
  refine decode_eq_reservedBit_iff.2 ⟨Instr.nop.row, Instr.row_mem _, hop, ?_⟩
  have hmask : w &&& Instr.nop.row.mask = w := BitVec.and_allOnes
  rwa [hmask]

end Sys2Proof.Machine
end

section
/-! PROOFS. The statements about exceptions: FAULT is left by hardware reset only, and a command that faults writes ST
and CAUSE only (spec/60_exceptions.md R161 to R168). -/

namespace Sys2Proof.Machine

/-! ## FAULT is terminal -/

/-- No accepted word has an effect in FAULT, illegal or not (R167, R168). -/
theorem acceptWord_of_fault (w : Word) {s : State} (hs : s.st = .fault) : acceptWord w s = .next s := by
  obtain ⟨-, ha⟩ | ⟨hr, -⟩ | ⟨hr, -⟩ := acceptWord_cases w s
  · exact ha
  · exact absurd hs hr
  · exact absurd hs hr

/-- The next of the host's inputs is a hardware reset, between two commands or while one is in progress (R180). -/
def ResetIsNext (s : State) : Prop := ∃ rest, s.host = .reset :: rest ∨ ∃ w, s.host = .resetDuring w :: rest

/-- Everything a step can do in FAULT: a hardware reset, or taking an input without any effect (R168). -/
theorem step_cases_of_fault {s : State} (hs : s.st = .fault) :
    ResetIsNext s ∨ ∃ rest, step s = .next { s with host := rest } := by
  obtain ⟨-, he⟩ | ⟨x, rest, hx, ⟨w, -, he⟩ | ⟨-, he⟩ | ⟨rfl | ⟨w, rfl⟩, -⟩⟩ := step_cases s
  case inl => exact .inr ⟨s.host, he⟩
  case inr.inl => exact .inr ⟨rest, he.trans (acceptWord_of_fault w hs)⟩
  case inr.inr.inl => exact .inr ⟨rest, he⟩
  case inr.inr.inr.inl => exact .inl ⟨rest, .inl hx⟩
  case inr.inr.inr.inr => exact .inl ⟨rest, .inr ⟨w, hx⟩⟩

/-- Settles O10: a step in FAULT that is no hardware reset changes the list of inputs at most, so neither ST nor
CAUSE. -/
theorem faultStateIsTerminal : Obligations.FaultStateIsTerminal := by
  intro s hs
  refine ⟨fun i => exec_of_fault i hs, fun w rest hw => ?word, fun t ht hchange => ?step⟩
  case word => exact (step_of_command hw).trans (acceptWord_of_fault w hs)
  case step =>
    obtain hreset | ⟨rest, he⟩ := step_cases_of_fault hs
    · exact hreset
    · cases he.symm.trans ht
      obtain hst | hcause := hchange
      · exact absurd hs hst
      · exact absurd rfl hcause

/-! ## Faults are precise -/

/-- Settles O12: a command with a cause is fault entry with that cause, which writes ST and CAUSE only; any other
command of a running core has its own effect, which neither leads to FAULT nor writes CAUSE. -/
theorem faultsArePrecise : Obligations.FaultsArePrecise :=
  fun i s => ⟨fun _ hx => exec_of_cause hx,
    fun hc hs => ⟨commandEffect i s, exec_of_effect hs hc, commandEffect_running i hs, commandEffect_cause i s⟩⟩

end Sys2Proof.Machine
end

section
/-! PROOFS. The machine never stops: every command, every accepted word and every step answers a next state
(spec/70_reset_and_hazards.md R196, R197). -/

namespace Sys2Proof.Machine

/-- A command is ignored in FAULT, or enters FAULT, or has its own effect: each answers a next state. -/
theorem exists_exec_eq_next (i : Instr) (s : State) : ∃ t, exec i s = .next t := by
  by_cases hs : s.st = .fault
  · exact ⟨s, exec_of_fault i hs⟩
  · cases hc : faultCause s.st s.var i with
    | some x => exact ⟨raiseFault x s, exec_of_cause hc⟩
    | none => exact ⟨commandEffect i s, exec_of_effect hs hc⟩

/-- An accepted word, illegal or not, answers a next state (R51, R167). -/
theorem exists_acceptWord_eq_next (w : Word) (s : State) : ∃ t, acceptWord w s = .next t := by
  obtain ⟨-, ha⟩ | ⟨-, -, ha⟩ | ⟨-, i, -, ha⟩ := acceptWord_cases w s
  case inl => exact ⟨s, ha⟩
  case inr.inl => exact ⟨raiseFault .illegal s, ha⟩
  case inr.inr => exact ha ▸ exists_exec_eq_next i s

/-- A step answers a next state, also when the host has no further input (R197). -/
theorem exists_step_eq_next (s : State) : ∃ t, step s = .next t := by
  obtain ⟨-, he⟩ | ⟨x, rest, -, ⟨w, -, he⟩ | ⟨-, he⟩ | ⟨-, he⟩⟩ := step_cases s
  case inl => exact ⟨s, he⟩
  case inr.inl => exact he ▸ exists_acceptWord_eq_next w _
  case inr.inr.inl => exact ⟨_, he⟩
  case inr.inr.inr => exact ⟨_, he⟩

/-- Settles O11: a command answers in each of its three cases, so an accepted word does, so every host input does. -/
theorem everyStepAnswers : Obligations.EveryStepAnswers := ⟨exists_exec_eq_next, exists_step_eq_next⟩

end Sys2Proof.Machine
end
